-- ==== Sys2Proof/Word.lean ====
section
/-! DEFINITION. The two word types of the hardware (spec/00_scope.md R9, R11).

`u8` of the spec is `Byte`: the registers A, X, Y and status, and every memory byte.
`u16` of the spec is `Word`: the program counter and every address.
Addition on a `BitVec` is the spec's `+8` and `+16`: it wraps and never faults (R11). -/

namespace Sys2Proof

/-- The spec's `u8`: an unsigned 8-bit value (R11). -/
abbrev Byte := BitVec 8

/-- The spec's `u16`: an unsigned 16-bit value, the width of an address and of the program counter (R9, R11). -/
abbrev Word := BitVec 16

end Sys2Proof
end

