-- ==== Sys2Proof/Syntax.lean ====
section
/-! DEFINITION. The instructions, one constructor per row of spec/opcode_table.json (spec/30_encoding.md R63).

A constructor carries the operand bytes its format has (R61): none for format I, one byte for format B, one
little-endian address for format W. -/

namespace Sys2Proof

/-- The six instructions of the hardware (R2, R63). -/
inductive Instr where
  /-- `BRK`, opcode 0x00: halt (R150). -/
  | brk
  /-- `LDA #$nn`, opcode 0xA9: `value` is the data byte `nn` (R120). -/
  | ldaImm (value : Byte)
  /-- `LDA $zz`, opcode 0xA5: `zp` is the zero-page address byte `zz` (R121). -/
  | ldaZp (zp : Byte)
  /-- `LDA $hhll`, opcode 0xAD: `addr` is the address `hh : ll` (R122). -/
  | ldaAbs (addr : Word)
  /-- `TAX`, opcode 0xAA (R130). -/
  | tax
  /-- `INX`, opcode 0xE8 (R140). -/
  | inx
  deriving DecidableEq, Repr

end Sys2Proof
end

