-- ==== Sys2Proof/Decode.lean ====
section
/-! DEFINITION. The instruction decoder and its encoder (spec/30_encoding.md R60-R69; operand-byte counts from
spec/40_addressing.md R81).

`decodeOpcode` is the spec's `decode` on one opcode byte (R66). `decode` reads a whole instruction from a list of
bytes and is total: it answers an instruction and the bytes after it, or rejects by name. `encode` writes the bytes
of an instruction. -/

namespace Sys2Proof

/-! ### Bytes of a 16-bit value (R11, R48) -/

/-- The spec's `hi : lo`, the 16-bit value `hi * 256 + lo` (R11). -/
def wordOf (hi lo : Byte) : Word := hi ++ lo

/-- `v[7:0]`, the byte that stands at the lower address (R48). -/
def lowByte (v : Word) : Byte := v.extractLsb' 0 8

/-- `v[15:8]`, the byte that stands at the higher address (R48). -/
def highByte (v : Word) : Byte := v.extractLsb' 8 8

/-! ### Modes, mnemonics and opcodes -/

/-- The closed enumeration of the ten addressing modes (R81). -/
inductive Mode where
  | immediate
  | zeroPage
  | zeroPageX
  | zeroPageY
  | absolute
  | absoluteX
  | absoluteY
  | indexedIndirectX
  | indirectIndexedY
  | nonAddressing
  deriving DecidableEq, Repr

/-- How many operand bytes a mode consumes (R81). -/
def operandBytes : Mode → Nat
  | .immediate | .zeroPage | .zeroPageX | .zeroPageY | .indexedIndirectX | .indirectIndexedY => 1
  | .absolute | .absoluteX | .absoluteY => 2
  | .nonAddressing => 0

/-- The four mnemonics (R70). -/
inductive Mnemonic where
  | brk
  | lda
  | tax
  | inx
  deriving DecidableEq, Repr

/-- The six defined opcodes (R63), each with its addressing mode. -/
inductive Opcode where
  | brk
  | ldaZp
  | ldaImm
  | tax
  | ldaAbs
  | inx
  deriving DecidableEq, Repr

/-- The mnemonic column of R63. -/
def mnemonicOf : Opcode → Mnemonic
  | .brk => .brk
  | .ldaZp => .lda
  | .ldaImm => .lda
  | .tax => .tax
  | .ldaAbs => .lda
  | .inx => .inx

/-- The addressing-mode column of R63. -/
def modeOf : Opcode → Mode
  | .brk => .nonAddressing
  | .ldaZp => .zeroPage
  | .ldaImm => .immediate
  | .tax => .nonAddressing
  | .ldaAbs => .absolute
  | .inx => .nonAddressing

/-- The length in bytes of an instruction: the opcode byte and its mode's operand bytes (R60). -/
def lengthOf (k : Opcode) : Nat := 1 + operandBytes (modeOf k)

/-- The spec's `decode(b)` (R66): which opcode a byte is, `none` for the 250 undefined bytes (R64). -/
def decodeOpcode (b : Byte) : Option Opcode :=
  if b = 0x00 then some .brk
  else if b = 0xA5 then some .ldaZp
  else if b = 0xA9 then some .ldaImm
  else if b = 0xAA then some .tax
  else if b = 0xAD then some .ldaAbs
  else if b = 0xE8 then some .inx
  else none

/-- The instruction an opcode and the two bytes after it make (R61, R62). A format that has fewer operand bytes
does not use the rest. -/
def instrOf (k : Opcode) (byte1 byte2 : Byte) : Instr :=
  match k with
  | .brk => .brk
  | .ldaZp => .ldaZp byte1
  | .ldaImm => .ldaImm byte1
  | .tax => .tax
  | .ldaAbs => .ldaAbs (wordOf byte2 byte1)
  | .inx => .inx

/-! ### The decoder on bytes -/

/-- What the decoder answers. -/
inductive DecodeResult where
  /-- An instruction, and the bytes after it. -/
  | ok (i : Instr) (rest : List Byte)
  /-- The first byte is one of the 250 undefined opcode bytes (R64). -/
  | undefinedOpcode (opcode : Byte)
  /-- The bytes end before the instruction does. Memory never ends so (R41): this is for a finite list only. -/
  | truncated
  deriving DecidableEq, Repr

/-- Read one instruction from the front of a list of bytes (R60, R61, R66). -/
def decode : List Byte → DecodeResult
  | [] => .truncated
  | op :: rest =>
    match decodeOpcode op with
    | none => .undefinedOpcode op
    | some k =>
      if rest.length < operandBytes (modeOf k) then .truncated
      else .ok (instrOf k (rest.getD 0 0) (rest.getD 1 0)) (rest.drop (operandBytes (modeOf k)))

/-! ### The encoder -/

/-- Which opcode an instruction is. -/
def opcodeOf : Instr → Opcode
  | .brk => .brk
  | .ldaImm _ => .ldaImm
  | .ldaZp _ => .ldaZp
  | .ldaAbs _ => .ldaAbs
  | .tax => .tax
  | .inx => .inx

/-- The opcode column of R63. -/
def opcodeByte : Opcode → Byte
  | .brk => 0x00
  | .ldaZp => 0xA5
  | .ldaImm => 0xA9
  | .tax => 0xAA
  | .ldaAbs => 0xAD
  | .inx => 0xE8

/-- The operand bytes of an instruction, in address order (R61). -/
def operandBytesOf : Instr → List Byte
  | .brk => []
  | .ldaImm v => [v]
  | .ldaZp z => [z]
  | .ldaAbs a => [lowByte a, highByte a]
  | .tax => []
  | .inx => []

/-- The bytes of an instruction, in address order (R61). -/
def encode (i : Instr) : List Byte := opcodeByte (opcodeOf i) :: operandBytesOf i

/-! ### The opcode table's words -/

/-- The bytes in address order of a word numbered as spec/opcode_table.json numbers it: byte 0 is bits 7:0, byte 1
is bits 15:8, byte 2 is bits 23:16. Bits from `nbits` up are 0. Three bytes is the longest instruction (R60). -/
def tableBytes (nbits w : Nat) : List Byte :=
  let v := w % 2 ^ nbits
  [BitVec.ofNat 8 v, BitVec.ofNat 8 (v / 256), BitVec.ofNat 8 (v / 65536)]

/-- The instruction the decoder reads from a word of the opcode table. -/
def decodeTableWord (nbits w : Nat) : Option Instr :=
  match decode (tableBytes nbits w) with
  | .ok i _ => some i
  | .undefinedOpcode _ => none
  | .truncated => none

end Sys2Proof
end

