-- ==== Sys2Proof/Config.lean ====
section
/-! DEFINITION. The parameters of the block (spec/00_scope.md R9).

Every parameter has a value in the spec ("none is left open") and no rule draws a value (R18), so this file
holds plain constants and no free value. -/

namespace Sys2Proof.Config

/-- The number of bytes of the one address space, 64 KiB (R9, R40). -/
def memorySize : Nat := 0x10000

/-- `LOAD_BASE`, where `Load` puts a program (R9, R10). -/
def loadBase : Word := 0x8000

/-- `RESET_VECTOR`, the address of the low byte of the reset vector; the high byte stands at the next address (R9). -/
def resetVector : Word := 0xFFFC

/-- What a byte reads as that nothing has written: Construct zeroes all 65536 bytes (R180, R37). -/
def unlistedByte : Byte := 0x00

end Sys2Proof.Config
end

