-- ==== Sys2Proof/Machine/State.lean ====
section
/-! DEFINITION. The state of one engine instance (spec/10_state.md R20-R37), the reasons a step can stop, and the
state after Construct and Reset.

The state is the five registers of R20, the memory of R32 and the run status of R33. Nothing else: no stack, no
control register, no mode, no interrupt state (R20, R30, R31, R39). The opcode, mode and effective address of an
instruction are transient and are not state (R35). -/

namespace Sys2Proof.Machine

/-- The two fatal conditions of R160. -/
inductive AbortReason where
  /-- Code 1: the fetched opcode byte is undefined (R161). -/
  | undefinedOpcode
  /-- Code 2: the resolver was called with the NonAddressing mode (R162). -/
  | nonAddressingResolve
  deriving DecidableEq, Repr

/-- `run_status` (R33). -/
inductive RunStatus where
  /-- Constructed, or returned to the host after a halt, and not running. -/
  | idle
  /-- Inside the run loop. -/
  | running
  /-- A fatal abort has happened; the opcode byte and its address are the recorded information (R160). -/
  | aborted (reason : AbortReason) (opcode : Byte) (opcodeAddress : Word)
  deriving DecidableEq, Repr

/-- The 65536 bytes of R32 as a list of (address, byte) in one canonical form (`Memory.wf`): addresses strictly
rising and below 0x10000, no byte that an unlisted address reads as. -/
abbrev Memory := List Host.Cell

/-- Everything one engine instance holds. -/
structure State where
  /-- The accumulator `A` (R20). -/
  a : Byte
  /-- Index register `X` (R20). -/
  x : Byte
  /-- Index register `Y` (R20). -/
  y : Byte
  /-- The status register: Negative at bit 7, Zero at bit 1, six storage bits (R26, R27). -/
  status : Byte
  /-- The program counter (R23). -/
  pc : Word
  /-- The memory (R32). -/
  mem : Memory
  /-- The run status (R33). -/
  runStatus : RunStatus
  deriving DecidableEq, Repr

/-- Why a step stops with no next state. No instruction and no memory access faults (R41): an abort itself is a next
state whose `runStatus` records it. -/
inductive Fault where
  /-- Raised by `step` on an aborted engine: no operation of that instance makes a step (R34, R164). It names the
  abort that stopped the engine. Safe: the model allows nothing here. -/
  | stoppedByAbort (reason : AbortReason) (opcode : Byte) (opcodeAddress : Word)
  deriving DecidableEq, Repr

/-- Why an operation is refused. No arm of `exec` refuses. -/
inductive Refusal where
  /-- An instruction without a meaning. No arm of `exec` gives it: every instruction has its meaning. Safe. -/
  | notModelled (mnemonic : String)
  /-- Given by the host operations and Run on an aborted engine (R164): they have no effect. Safe. -/
  | engineAborted (reason : AbortReason) (opcode : Byte) (opcodeAddress : Word)
  /-- Given by the host operations, Run and the read-out on a running engine: the host has no move during a run
  (R191). Safe. -/
  | engineRunning
  deriving DecidableEq, Repr

/-- The state Construct makes (R180; the Construct column of R37). -/
def State.construct : State where
  a := 0x00
  x := 0x00
  y := 0x00
  status := 0x00
  pc := 0x0000
  mem := []
  runStatus := .idle

/-- The machine right after reset: Construct, then Reset with the vector still zero (R37, R181, R185). Reset
itself keeps Y and memory (R38); their values here are Construct's. -/
def State.reset : State where
  a := 0x00
  x := 0x00
  y := 0x00
  status := 0x00
  pc := 0x0000
  mem := []
  runStatus := .idle

end Sys2Proof.Machine
end

