-- ==== Sys2Proof/Machine/Ops.lean ====
section
/-! DEFINITION. The shared operations over memory and registers (spec/20_memory.md R42-R48, spec/10_state.md R23),
the halt (spec/45_halt.md R150) and taking a fatal abort (spec/60_exceptions.md R160-R163). There is no return from
an abort (R169). -/

namespace Sys2Proof.Machine

/-- What a step or a meaning answers. -/
abbrev Result := Host.Outcome State Fault Refusal

/-! ### Memory as a canonical list -/

/-- The canonical form from a least address on: addresses strictly rising, all below 0x10000, no unlisted byte. -/
def Memory.wfFrom : Nat → Memory → Bool
  | _, [] => true
  | low, (k, v) :: rest =>
    decide (low ≤ k) && decide (k < Config.memorySize) && decide (v ≠ Config.unlistedByte)
      && Memory.wfFrom (k + 1) rest

/-- The memory is in its canonical form. -/
def Memory.wf (m : Memory) : Bool := Memory.wfFrom 0 m

/-- The byte at a cell number. -/
def Memory.lookup : Memory → Nat → Byte
  | [], _ => Config.unlistedByte
  | (k, v) :: rest, n => if k = n then v else Memory.lookup rest n

/-- Put a cell in front, unless its byte is the one an unlisted address reads as. -/
def Memory.consCell (n : Nat) (v : Byte) (rest : Memory) : Memory :=
  if v = Config.unlistedByte then rest else (n, v) :: rest

/-- Set the byte at a cell number and keep the canonical form. -/
def Memory.store : Memory → Nat → Byte → Memory
  | [], n, v => Memory.consCell n v []
  | (k, w) :: rest, n, v =>
    if n < k then Memory.consCell n v ((k, w) :: rest)
    else if n = k then Memory.consCell n v rest
    else (k, w) :: Memory.store rest n v

/-! ### The memory subsystem's operations -/

/-- `read(addr)` (R42). -/
def Memory.read (m : Memory) (addr : Word) : Byte := Memory.lookup m addr.toNat

/-- `write(addr, v)` (R43). -/
def Memory.write (m : Memory) (addr : Word) (v : Byte) : Memory := Memory.store m addr.toNat v

/-- `read16(addr)`: low byte first, the high byte's address wraps at the top of the space only (R44). -/
def Memory.read16 (m : Memory) (addr : Word) : Word := wordOf (m.read (addr + 1)) (m.read addr)

/-- `write16(addr, v)`: the low byte, then the high byte (R45). -/
def Memory.write16 (m : Memory) (addr : Word) (v : Word) : Memory :=
  (m.write addr (lowByte v)).write (addr + 1) (highByte v)

/-- `set_reset_vector(addr)` (R47). -/
def Memory.setResetVector (m : Memory) (addr : Word) : Memory := m.write16 Config.resetVector addr

/-- Copy bytes to rising cell numbers, first byte first: the loop of `load_program` (R46). -/
def Memory.writeBytes (m : Memory) (base : Nat) : List Byte → Memory
  | [] => m
  | b :: bs => Memory.writeBytes (m.store base b) (base + 1) bs

/-- `load_program(bytes, at)`: `none` is OutOfBounds, with no byte written (R46). -/
def Memory.loadProgram (m : Memory) (bytes : List Byte) (base : Word) : Option Memory :=
  if base.toNat + bytes.length > Config.memorySize then none
  else some (m.writeBytes base.toNat bytes)

/-! ### Register operations -/

/-- `A <- v` (R12). -/
def State.setA (s : State) (v : Byte) : State := { s with a := v }

/-- `X <- v` (R12). -/
def State.setX (s : State) (v : Byte) : State := { s with x := v }

/-- `status <- v` (R12). -/
def State.setStatus (s : State) (v : Byte) : State := { s with status := v }

/-- `pc <- pc +16 n` (R23, R24). -/
def State.advancePc (s : State) (n : Nat) : State := { s with pc := s.pc + BitVec.ofNat 16 n }

/-- `run_status <- r` (R33). -/
def State.setRunStatus (s : State) (r : RunStatus) : State := { s with runStatus := r }

/-- Replace the memory (host operations only: no instruction writes memory, R51). -/
def State.setMem (s : State) (m : Memory) : State := { s with mem := m }

/-! ### Ending a run -/

/-- The code the spec gives a fatal condition (R160). -/
def abortCode : AbortReason → Nat
  | .undefinedOpcode => 1
  | .nonAddressingResolve => 2

/-- `raise Abort(reason, info)` (R14, R160): the run status records the reason, the opcode byte and its address.
No other state changes, nothing is saved and control goes to no vector (R163, R167). -/
def takeAbort (reason : AbortReason) (opcode : Byte) (opcodeAddress : Word) (s : State) : State :=
  s.setRunStatus (.aborted reason opcode opcodeAddress)

/-- `halt` (R14, R33, R150): the engine is Idle again and nothing else is written. -/
def haltRun (s : State) : State := s.setRunStatus .idle

end Sys2Proof.Machine
end

