-- ==== Sys2Proof/Machine/Halt.lean ====
section
/-! DEFINITION. The halt family: BRK (spec/45_halt.md R150). -/

namespace Sys2Proof.Machine

/-- BRK: `halt` (R150). `pc` stays where sub-step (b) left it; no flag and no other state is written. -/
def execBrk (s : State) : Result := .next (haltRun s)

end Sys2Proof.Machine
end

