-- ==== Sys2Proof/Machine/Flags.lean ====
section
/-! DEFINITION. The flag update logic (spec/41_execution_engine.md R109, R110; spec/10_state.md R26). -/

namespace Sys2Proof.Machine

/-- The status bit of the Zero flag, bit 1 (R26). -/
def zeroMask : Byte := 0x02

/-- The status bit of the Negative flag, bit 7 (R26). -/
def negativeMask : Byte := 0x80

/-- The six status bits the flag update keeps (R110). -/
def storageMask : Byte := 0x7D

/-- The status after `set_zn(r)`, as R110 writes it: the six storage bits, Zero iff `r` is 0, Negative iff bit 7 of
`r` is set. -/
def updateZN (status r : Byte) : Byte :=
  (status &&& storageMask) ||| (if r = 0x00 then zeroMask else 0x00) ||| (r &&& negativeMask)

/-- `set_zn(r)` (R109). -/
def State.setZN (s : State) (r : Byte) : State := s.setStatus (updateZN s.status r)

end Sys2Proof.Machine
end

