-- ==== Sys2Proof/Machine/Transfer.lean ====
section
/-! DEFINITION. The register transfer family: TAX (spec/43_transfer.md R130). -/

namespace Sys2Proof.Machine

/-- `X <- v; set_zn(X)`, shared by TAX and INX (R130, R140). -/
def loadX (v : Byte) (s : State) : State := (s.setX v).setZN v

/-- TAX: `X <- A; set_zn(X)` (R130). No operand bytes: `pc` stays where sub-step (b) left it. -/
def execTax (s : State) : Result := .next (loadX s.a s)

end Sys2Proof.Machine
end

