-- ==== Sys2Proof/Machine/Increment.lean ====
section
/-! DEFINITION. The increment family: INX (spec/44_increment.md R140). -/

namespace Sys2Proof.Machine

/-- INX: `X <- X +8 1; set_zn(X)` (R140). No operand bytes: `pc` stays where sub-step (b) left it. -/
def execInx (s : State) : Result := .next (loadX (s.x + 1) s)

end Sys2Proof.Machine
end

