-- ==== Sys2Proof/Machine/Operands.lean ====
section
/-! DEFINITION. The addressing resolver with all ten modes (spec/40_addressing.md R80-R94).

The spec's `resolve(mode)` reads the operand bytes at `pc` and computes an address from them. It is written in two
parts, so that an instruction that already carries its operand shares the second: `fetchOperand` reads the operand
bytes, `addressOf` computes the effective address. Both only read (R80). -/

namespace Sys2Proof.Machine

/-- A mode with its operand bytes. -/
inductive Operand where
  | immediate
  | zeroPage (base : Byte)
  | zeroPageX (base : Byte)
  | zeroPageY (base : Byte)
  | absolute (base : Word)
  | absoluteX (base : Word)
  | absoluteY (base : Word)
  | indexedIndirectX (base : Byte)
  | indirectIndexedY (base : Byte)
  | nonAddressing
  deriving DecidableEq, Repr

/-- What the resolver answers: an effective address or the abort of R91. -/
inductive Resolved where
  | address (ea : Word)
  | abort (reason : AbortReason)
  deriving DecidableEq, Repr

/-- `zext_16(b)`: the zero-page address of a byte (R11). -/
def zeroExtend16 (b : Byte) : Word := b.setWidth 16

/-- The 16-bit pointer in the zero page at `ptr`: two one-byte reads, the second at `ptr +8 1`, which wraps within
the zero page (R89, R90, R92). -/
def zeroPagePointer (m : Memory) (ptr : Byte) : Word :=
  wordOf (m.read (zeroExtend16 (ptr + 1))) (m.read (zeroExtend16 ptr))

/-- The operand bytes of a mode, read at `pc` (R81, R86). `Immediate` and `NonAddressing` read nothing. -/
def fetchOperand (mode : Mode) (s : State) : Operand :=
  match mode with
  | .immediate => .immediate
  | .zeroPage => .zeroPage (s.mem.read s.pc)
  | .zeroPageX => .zeroPageX (s.mem.read s.pc)
  | .zeroPageY => .zeroPageY (s.mem.read s.pc)
  | .absolute => .absolute (s.mem.read16 s.pc)
  | .absoluteX => .absoluteX (s.mem.read16 s.pc)
  | .absoluteY => .absoluteY (s.mem.read16 s.pc)
  | .indexedIndirectX => .indexedIndirectX (s.mem.read s.pc)
  | .indirectIndexedY => .indirectIndexedY (s.mem.read s.pc)
  | .nonAddressing => .nonAddressing

/-- The effective address of an operand, with `pc` at the first operand byte (R82-R91). -/
def addressOf (o : Operand) (s : State) : Resolved :=
  match o with
  | .immediate => .address s.pc
  | .zeroPage base => .address (zeroExtend16 base)
  | .zeroPageX base => .address (zeroExtend16 (base + s.x))
  | .zeroPageY base => .address (zeroExtend16 (base + s.y))
  | .absolute base => .address base
  | .absoluteX base => .address (base + zeroExtend16 s.x)
  | .absoluteY base => .address (base + zeroExtend16 s.y)
  | .indexedIndirectX base => .address (zeroPagePointer s.mem (base + s.x))
  | .indirectIndexedY base => .address (zeroPagePointer s.mem base + zeroExtend16 s.y)
  | .nonAddressing => .abort .nonAddressingResolve

/-- The spec's `resolve(mode)` (R80). -/
def resolve (mode : Mode) (s : State) : Resolved := addressOf (fetchOperand mode s) s

/-- The mode of an operand. -/
def operandMode : Operand → Mode
  | .immediate => .immediate
  | .zeroPage _ => .zeroPage
  | .zeroPageX _ => .zeroPageX
  | .zeroPageY _ => .zeroPageY
  | .absolute _ => .absolute
  | .absoluteX _ => .absoluteX
  | .absoluteY _ => .absoluteY
  | .indexedIndirectX _ => .indexedIndirectX
  | .indirectIndexedY _ => .indirectIndexedY
  | .nonAddressing => .nonAddressing

/-- Sub-steps (d) and (e) of R101 and then a mutation: resolve the operand with `pc` at the operand bytes, move `pc`
past them, and hand the effective address to `mutate`. A resolver abort is taken before `pc` moves (R162); the
opcode stands one byte before `pc` (R23). -/
def withAddress (opcode : Byte) (o : Operand) (mutate : Word → State → State) (s : State) : Result :=
  match addressOf o s with
  | .abort reason => .next (takeAbort reason opcode (s.pc - 1) s)
  | .address ea => .next (mutate ea (s.advancePc (operandBytes (operandMode o))))

end Sys2Proof.Machine
end

