-- ==== Sys2Proof/Machine/Load.lean ====
section
/-! DEFINITION. The load family: LDA (spec/42_load.md R120-R123). A meaning runs after sub-step (b) of R101, so on
entry `pc` holds the address of the first operand byte. -/

namespace Sys2Proof.Machine

/-- `A <- v; set_zn(A)` (R123). -/
def loadA (v : Byte) (s : State) : State := (s.setA v).setZN v

/-- `A <- MemRead(ea, 1); set_zn(A)` (R121, R122). -/
def loadAFrom (ea : Word) (s : State) : State := loadA (s.mem.read ea) s

/-- LDA immediate (R120). `value` is the operand byte, which is the byte at the effective address `pc` (R82). -/
def execLdaImm (value : Byte) (s : State) : Result := .next (loadA value (s.advancePc 1))

/-- LDA zero-page (R121). -/
def execLdaZp (zp : Byte) (s : State) : Result := withAddress 0xA5 (.zeroPage zp) loadAFrom s

/-- LDA absolute (R122). -/
def execLdaAbs (addr : Word) (s : State) : Result := withAddress 0xAD (.absolute addr) loadAFrom s

end Sys2Proof.Machine
end

