-- ==== Sys2Proof/Machine/Dispatch.lean ====
section
/-! DEFINITION. The dispatch of an instruction to its meaning, one arm per constructor (spec/41_execution_engine.md
R102). `s` is the state after sub-steps (a) and (b) of R101: `pc` stands just past the opcode byte. -/

namespace Sys2Proof.Machine

/-- The meaning of an instruction (R102). -/
def exec (i : Instr) (s : State) : Host.Outcome State Fault Refusal :=
  match i with
  | .brk => Sys2Proof.Machine.execBrk s
  | .ldaImm value => Sys2Proof.Machine.execLdaImm value s
  | .ldaZp zp => Sys2Proof.Machine.execLdaZp zp s
  | .ldaAbs addr => Sys2Proof.Machine.execLdaAbs addr s
  | .tax => Sys2Proof.Machine.execTax s
  | .inx => Sys2Proof.Machine.execInx s

end Sys2Proof.Machine
end

