-- ==== Sys2Proof/Machine/Engine.lean ====
section
/-! DEFINITION. Fetching, and one iteration of the run loop (spec/41_execution_engine.md R101), which `step` calls. -/

namespace Sys2Proof.Machine

/-- The three bytes from an address on, each address `+16 1` from the one before (R60). -/
def fetchWindow (m : Memory) (p : Word) : List Byte := [m.read p, m.read (p + 1), m.read (p + 2)]

/-- One instruction step (R101) of an engine inside the run loop: fetch the opcode byte (a), advance past it (b),
dispatch (c); an undefined opcode aborts here, with no operand byte used (R104); a defined one runs its meaning,
which does (d) to (g). -/
def instructionStep (s : State) : Result :=
  match decodeOpcode (s.mem.read s.pc) with
  | none => .next (takeAbort .undefinedOpcode (s.mem.read s.pc) s.pc (s.advancePc 1))
  | some k => exec (instrOf k (s.mem.read (s.pc + 1)) (s.mem.read (s.pc + 2))) (s.advancePc 1)

/-- `step` on an engine by its run status. A running engine makes its next instruction step. An Idle one makes a
step only when the host invokes Run, which sets `Running` and starts at the current `pc` (R100, R108): the step is
that Run's first instruction step. An aborted one makes no step (R164). -/
def engineStep (s : State) : Result :=
  match s.runStatus with
  | .idle => instructionStep (s.setRunStatus .running)
  | .running => instructionStep s
  | .aborted reason opcode opcodeAddress => .fault (.stoppedByAbort reason opcode opcodeAddress)

/-- Write three bytes at `pc`, `pc +16 1` and `pc +16 2`, where the next instruction is fetched. -/
def placeAtPc (s : State) (bytes : List Byte) : State :=
  s.setMem (((s.mem.write s.pc (bytes.getD 0 0)).write (s.pc + 1) (bytes.getD 1 0)).write (s.pc + 2) (bytes.getD 2 0))

end Sys2Proof.Machine
end

