-- ==== Sys2Proof/Machine/Step.lean ====
section
/-! DEFINITION. The step function of the machine (spec/41_execution_engine.md R101, R105). -/

namespace Sys2Proof.Machine

/-- One atomic transition of the engine: one instruction step (R105). -/
def step (s : State) : Host.Outcome State Fault Refusal := engineStep s

/-- `s` with the instruction `w` (numbered as spec/opcode_table.json numbers it) stored where `step` fetches its next
opcode, at `pc`; an operand byte past 0xFFFF stands at 0x0000 (R60, R24). Only memory changes: an Idle or a running
engine needs nothing else, and an aborted one makes no step whatever stands in memory (R164). -/
def State.withFetchWord (s : State) (nbits w : Nat) : State := placeAtPc s (tableBytes nbits w)

end Sys2Proof.Machine
end

