-- ==== Sys2Proof/Machine/RuleStep.lean ====
section
/-! DEFINITION. The pseudocode of spec/41_execution_engine.md R101 written sub-step by sub-step, with the resolver
called on the mode of the opcode. `step` is the machine; this is the clear form it is held to (the statement
`StepFollowsTheRunLoopRule` says that the two agree). -/

namespace Sys2Proof.Machine

/-- Sub-step (f), `execute(m, ea)`: the mutation of a mnemonic and its result `r` (R120-R140, R111). Only LDA uses
`ea`. BRK never comes here (sub-step (c) halts on it); its line changes nothing. -/
def ruleExecute (m : Mnemonic) (ea : Word) (s : State) : State × Byte :=
  match m with
  | .brk => (s, s.a)
  | .lda => (s.setA (s.mem.read ea), s.mem.read ea)
  | .tax => (s.setX s.a, s.a)
  | .inx => (s.setX (s.x + 1), s.x + 1)

/-- Sub-steps (e) to (g): advance past the operand bytes, execute, update Zero and Negative from the result. -/
def ruleFinish (k : Opcode) (ea : Word) (s : State) : State :=
  let s' := s.advancePc (lengthOf k - 1)
  let done := ruleExecute (mnemonicOf k) ea s'
  done.1.setZN done.2

/-- One instruction step as R101 writes it. -/
def ruleStep (s : State) : Result :=
  let p := s.pc
  let op := s.mem.read s.pc
  let s1 := s.advancePc 1
  match decodeOpcode op with
  | none => .next (takeAbort .undefinedOpcode op p s1)
  | some k =>
    if mnemonicOf k = .brk then .next (haltRun s1)
    else if modeOf k = .nonAddressing then .next (ruleFinish k 0 s1)
    else
      match resolve (modeOf k) s1 with
      | .abort reason => .next (takeAbort reason op p s1)
      | .address ea => .next (ruleFinish k ea s1)

end Sys2Proof.Machine
end

