-- ==== Sys2Proof/Machine/HostOps.lean ====
section
/-! DEFINITION. What the host can do to an engine (spec/70_reset_and_hazards.md R180-R193) and Run
(spec/41_execution_engine.md R100, R106-R108).

Construct is `State.construct`. Every other operation is a function of the state. The host acts only on an Idle
engine; on an aborted one and on a running one every operation is refused and changes nothing (R164, R191). -/

namespace Sys2Proof.Machine

/-- The host snapshot (R192): the registers it sets (`none` leaves one as it is) and the memory bytes it writes. -/
structure Snapshot where
  a : Option Byte
  x : Option Byte
  y : Option Byte
  status : Option Byte
  pc : Option Word
  bytes : List (Word × Byte)
  deriving DecidableEq, Repr

/-- The host operations of R190 that change the state, but for Construct and Run. -/
inductive HostOp where
  /-- `Load(program)` (R182). -/
  | load (program : List Byte)
  /-- `load_program(bytes, at)` (R46). -/
  | loadProgram (bytes : List Byte) (base : Word)
  /-- `set_reset_vector(addr)` (R47). -/
  | setResetVector (addr : Word)
  /-- `write(a, v)` (R43). -/
  | write (addr : Word) (v : Byte)
  /-- `write16(a, v)` (R45). -/
  | write16 (addr : Word) (v : Word)
  /-- Reset (R181). -/
  | reset
  /-- The host snapshot (R192). -/
  | snapshot (snap : Snapshot)
  deriving DecidableEq, Repr

/-- What a host operation gives back. -/
inductive HostResult where
  /-- Done; the new state. -/
  | ok (s : State)
  /-- `OutOfBounds(at, n)`: the load-time capacity error. It is no fault and changes no state (R46, R165). -/
  | outOfBounds (base : Word) (n : Nat)
  /-- Refused: no effect and no step (R164, R191). -/
  | refused (r : Refusal)
  deriving DecidableEq, Repr

/-- The state of the engine after a host operation on `s`. -/
def stateAfter (s : State) : HostResult → State
  | .ok t => t
  | .outOfBounds _ _ => s
  | .refused _ => s

/-- Reset (R181): A, X and status are cleared, `pc` is read from the reset vector; Y and memory stay. -/
def resetOp (s : State) : State :=
  { s with a := 0x00, x := 0x00, status := 0x00, pc := s.mem.read16 Config.resetVector }

/-- The memory writes of a snapshot, first to last (R192). -/
def writePairs (m : Memory) : List (Word × Byte) → Memory
  | [] => m
  | (addr, v) :: rest => writePairs (m.write addr v) rest

/-- The host snapshot (R192). -/
def applySnapshot (snap : Snapshot) (s : State) : State :=
  { s with
    a := snap.a.getD s.a
    x := snap.x.getD s.x
    y := snap.y.getD s.y
    status := snap.status.getD s.status
    pc := snap.pc.getD s.pc
    mem := writePairs s.mem snap.bytes }

/-- `load_program(bytes, at)` on the engine's memory (R46). -/
def loadProgramOp (bytes : List Byte) (base : Word) (s : State) : HostResult :=
  match s.mem.loadProgram bytes base with
  | none => .outOfBounds base bytes.length
  | some m => .ok (s.setMem m)

/-- `Load(program)` (R182): copy to the load base, then set the reset vector to it; a failed copy sets no vector. -/
def loadOp (program : List Byte) (s : State) : HostResult :=
  match s.mem.loadProgram program Config.loadBase with
  | none => .outOfBounds Config.loadBase program.length
  | some m => .ok (s.setMem (m.setResetVector Config.loadBase))

/-- A host operation on an Idle engine (R190). -/
def hostOpIdle (op : HostOp) (s : State) : HostResult :=
  match op with
  | .load program => loadOp program s
  | .loadProgram bytes base => loadProgramOp bytes base s
  | .setResetVector addr => .ok (s.setMem (s.mem.setResetVector addr))
  | .write addr v => .ok (s.setMem (s.mem.write addr v))
  | .write16 addr v => .ok (s.setMem (s.mem.write16 addr v))
  | .reset => .ok (resetOp s)
  | .snapshot snap => .ok (applySnapshot snap s)

/-- A host operation (R164, R190, R191). -/
def hostOp (op : HostOp) (s : State) : HostResult :=
  match s.runStatus with
  | .idle => hostOpIdle op s
  | .running => .refused .engineRunning
  | .aborted reason opcode opcodeAddress => .refused (.engineAborted reason opcode opcodeAddress)

/-- The boot sequence before Run (R184): Construct, Load, Reset. -/
def boot (program : List Byte) : HostResult :=
  match hostOp (.load program) State.construct with
  | .ok s => hostOp .reset s
  | .outOfBounds base n => .outOfBounds base n
  | .refused r => .refused r

/-! ### Run -/

/-- The outcome of Run under fuel (R100, R106). -/
inductive RunOutcome where
  /-- `Halted`: a BRK was executed; the final state (R107). -/
  | halted (s : State)
  /-- `Aborted(reason, info)`; the state is kept for determinism only (R163). -/
  | aborted (reason : AbortReason) (opcode : Byte) (opcodeAddress : Word) (s : State)
  /-- The fuel ran out first: neither Halted nor Aborted (R106). -/
  | outOfFuel (s : State)
  /-- Run is not allowed in this state (R100, R164, R191). -/
  | refused (r : Refusal)
  deriving DecidableEq, Repr

/-- The run loop (R100): instruction steps until one leaves the engine Idle or Aborted, at most `fuel` of them. -/
def runLoop : Nat → State → RunOutcome
  | 0, s => .outOfFuel s
  | fuel + 1, s =>
    match step s with
    | .next t =>
      match t.runStatus with
      | .idle => .halted t
      | .running => runLoop fuel t
      | .aborted reason opcode opcodeAddress => .aborted reason opcode opcodeAddress t
    | .fault (.stoppedByAbort reason opcode opcodeAddress) => .aborted reason opcode opcodeAddress s
    | .refused r => .refused r

/-- Run (R100): on an Idle engine it sets `Running` and loops from the current `pc`, resetting nothing (R108). -/
def run (fuel : Nat) (s : State) : RunOutcome :=
  match s.runStatus with
  | .idle => runLoop fuel (s.setRunStatus .running)
  | .running => .refused .engineRunning
  | .aborted reason opcode opcodeAddress => .refused (.engineAborted reason opcode opcodeAddress)

/-! ### Read-out -/

/-- What the host reads (R36, R193). -/
structure ReadOut where
  a : Byte
  x : Byte
  y : Byte
  status : Byte
  pc : Word
  mem : Memory
  deriving DecidableEq, Repr

/-- The read-out, allowed on an Idle and on an aborted engine, where it carries no meaning (R190, R163). -/
def readOut (s : State) : Except Refusal ReadOut :=
  match s.runStatus with
  | .idle => .ok ⟨s.a, s.x, s.y, s.status, s.pc, s.mem⟩
  | .running => .error .engineRunning
  | .aborted _ _ _ => .ok ⟨s.a, s.x, s.y, s.status, s.pc, s.mem⟩

end Sys2Proof.Machine
end

