-- ==== Sys2Proof/Safety.lean ====
section
/-! DEFINITION. The terms claims are stated in: when an engine can make a step, what a flag update says bit by bit,
the invariant of the machine, and a safe run. -/

namespace Sys2Proof.Machine

/-- The engine is not aborted: it makes a step, its own or the first one of the host's Run (R100, R164). -/
def State.canRun (s : State) : Prop :=
  match s.runStatus with
  | .idle => True
  | .running => True
  | .aborted _ _ _ => False

/-- The status `after` is `before` with Zero (bit 1) and Negative (bit 7) set from the result `r` and the other six
bits as they were (R109, R110), said bit by bit. -/
def FlagsFrom (before r after : Byte) : Prop :=
  after.getLsbD 1 = decide (r = 0x00) ∧
  after.getLsbD 7 = r.getLsbD 7 ∧
  ∀ bit, bit ≠ 1 → bit ≠ 7 → after.getLsbD bit = before.getLsbD bit

/-- What the run status says of an abort is so: the recorded byte is undefined, it stands at the recorded address,
and `pc` is just past it (R161, R163). The resolver's abort never happens in a run (R93, R162). -/
def State.abortRecordFits (s : State) : Prop :=
  match s.runStatus with
  | .idle => True
  | .running => True
  | .aborted .undefinedOpcode opcode opcodeAddress =>
    decodeOpcode opcode = none ∧ s.mem.read opcodeAddress = opcode ∧ s.pc = opcodeAddress + 1
  | .aborted .nonAddressingResolve _ _ => False

/-- The invariant of the machine: the memory is in its canonical form and an abort record is true. -/
structure State.Inv (s : State) : Prop where
  memWf : s.mem.wf = true
  recordFits : s.abortRecordFits

/-- A safe run: Run ends Halted. The outcome Aborted is never a final state of a successful run (R163), and a run
out of fuel has not ended (R106). -/
def HaltsWith (fuel : Nat) (s t : State) : Prop := run fuel s = .halted t

end Sys2Proof.Machine
end

