-- ==== Sys2Proof/WellFormed.lean ====
section
/-! DEFINITION. When a byte sequence is one well-formed instruction (spec/30_encoding.md R60, R61, R64).

The operand fields of `Instr` have exactly the widths of the formats (R61), so an operand out of range cannot be
written down. What can be wrong is the byte sequence: no byte at all, a first byte that is no opcode, or a number
of operand bytes that is not the one the opcode's mode has. -/

namespace Sys2Proof

/-- The bytes are one whole instruction: an opcode byte of R63 and exactly its operand bytes (R81). -/
def wellFormedBytes : List Byte → Bool
  | [] => false
  | op :: operands =>
    match decodeOpcode op with
    | none => false
    | some k => operands.length == operandBytes (modeOf k)

/-- An instruction is well-formed when its encoding is. -/
def Instr.wellFormed (i : Instr) : Bool := wellFormedBytes (encode i)

end Sys2Proof
end

