-- ==== Sys2Proof/Certificates/Slice0/Obligations.lean ====
section
/-! DEFINITION. The statements for the provers, from the numbered rules of spec/.

Rules that the spec marks as its own decision or derivation are used with basis 'derived'; the docstring names the
decision. A statement about an aborted state says what R163 has a model keep for determinism; it gives that state no
meaning. -/

open Sys2Proof Sys2Proof.Machine

/-! ### Encoding -/

/-- R66: the decoder on one opcode byte, for all 256 values, with the mnemonic, mode and length of each entry. -/
def Obligations.OpcodeByteDecoding : Prop :=
  (decodeOpcode 0x00 = some .brk ∧ mnemonicOf .brk = .brk ∧ modeOf .brk = .nonAddressing ∧ lengthOf .brk = 1) ∧
  (decodeOpcode 0xA5 = some .ldaZp ∧ mnemonicOf .ldaZp = .lda ∧ modeOf .ldaZp = .zeroPage ∧ lengthOf .ldaZp = 2) ∧
  (decodeOpcode 0xA9 = some .ldaImm ∧ mnemonicOf .ldaImm = .lda ∧ modeOf .ldaImm = .immediate ∧
    lengthOf .ldaImm = 2) ∧
  (decodeOpcode 0xAA = some .tax ∧ mnemonicOf .tax = .tax ∧ modeOf .tax = .nonAddressing ∧ lengthOf .tax = 1) ∧
  (decodeOpcode 0xAD = some .ldaAbs ∧ mnemonicOf .ldaAbs = .lda ∧ modeOf .ldaAbs = .absolute ∧
    lengthOf .ldaAbs = 3) ∧
  (decodeOpcode 0xE8 = some .inx ∧ mnemonicOf .inx = .inx ∧ modeOf .inx = .nonAddressing ∧ lengthOf .inx = 1) ∧
  (∀ b : Byte, decodeOpcode b = none ↔ b ∉ ([0x00, 0xA5, 0xA9, 0xAA, 0xAD, 0xE8] : List Byte))

/-- R61, R63: words written out from the encodings decode to the instructions they stand for. -/
def Obligations.WrittenOutWordsDecode : Prop :=
  decode [0b00000000, 0x77] = .ok .brk [0x77] ∧
  decode [0b10101001, 0b00000101] = .ok (.ldaImm 0x05) [] ∧
  decode [0b10100101, 0b00010000] = .ok (.ldaZp 0x10) [] ∧
  decode [0b10101101, 0b00110100, 0b00010010] = .ok (.ldaAbs 0x1234) [] ∧
  decode [0b10101010] = .ok .tax [] ∧
  decode [0b11101000] = .ok .inx [] ∧
  decode [0b11111111, 0x00] = .undefinedOpcode 0xFF

/-- Decoding and encoding agree in both directions: the decoder reads instruction `i` from the front of a byte list
exactly when the list begins with the bytes of `i` (R61, R66). -/
def Obligations.DecodeAgreesWithEncode : Prop :=
  ∀ (bs : List Byte) (i : Instr) (rest : List Byte), decode bs = .ok i rest ↔ bs = encode i ++ rest

/-- The well-formed byte sequences are exactly those that decode to one instruction with nothing left (R60, R81). -/
def Obligations.WellFormedBytesDecode : Prop :=
  ∀ bs : List Byte, wellFormedBytes bs = true ↔ ∃ i, decode bs = .ok i []

/-! ### Memory -/

/-- R43: `write` sets the byte at its address and changes no other byte. -/
def Obligations.WriteChangesOneByte : Prop :=
  ∀ (m : Memory) (addr : Word) (v : Byte), m.wf = true →
    (m.write addr v).read addr = v ∧ ∀ b : Word, b ≠ addr → (m.write addr v).read b = m.read b

/-- R44: `read16` is little-endian, and at 0xFFFF its high byte comes from 0x0000. -/
def Obligations.Read16LittleEndian : Prop :=
  ∀ m : Memory,
    (∀ addr : Word, (m.read16 addr).toNat = (m.read (addr + 1)).toNat * 256 + (m.read addr).toNat) ∧
    (m.read16 0xFFFF).toNat = (m.read 0x0000).toNat * 256 + (m.read 0xFFFF).toNat

/-- R45, R48: `write16` puts the low byte at its address and the high byte at the next one, wrapping at 0xFFFF, and
changes no other byte; `read16` gives the value back at every address. (The source states the round trip up to
0xFFFD; R45 derives it for the last two addresses.) -/
def Obligations.Write16RoundTrip : Prop :=
  ∀ (m : Memory) (addr v : Word), m.wf = true →
    ((m.write16 addr v).read addr).toNat = v.toNat % 256 ∧
    ((m.write16 addr v).read (addr + 1)).toNat = v.toNat / 256 ∧
    (∀ b : Word, b ≠ addr → b ≠ addr + 1 → (m.write16 addr v).read b = m.read b) ∧
    (m.write16 addr v).read16 addr = v

/-- R47: `set_reset_vector` writes the address at 0xFFFC (low byte) and 0xFFFD (high byte) and nothing else. -/
def Obligations.SetResetVectorWrites : Prop :=
  ∀ (s : State) (addr : Word), s.mem.wf = true → s.runStatus = .idle →
    ∃ t, hostOp (.setResetVector addr) s = .ok t ∧
      (t.mem.read 0xFFFC).toNat = addr.toNat % 256 ∧
      (t.mem.read 0xFFFD).toNat = addr.toNat / 256 ∧
      (∀ b : Word, b ≠ 0xFFFC → b ≠ 0xFFFD → t.mem.read b = s.mem.read b) ∧
      t.a = s.a ∧ t.x = s.x ∧ t.y = s.y ∧ t.status = s.status ∧ t.pc = s.pc ∧ t.runStatus = .idle

/-- R46 (its bound is the spec's decision D9): a program that ends at or below 0x10000 is copied whole to its base,
every other byte is as before, and the canonical form is kept. -/
def Obligations.LoadProgramCopies : Prop :=
  ∀ (m : Memory) (bytes : List Byte) (base : Word), m.wf = true → base.toNat + bytes.length ≤ 0x10000 →
    ∃ m', m.loadProgram bytes base = some m' ∧ m'.wf = true ∧
      (∀ (i : Nat) (h : i < bytes.length), m'.read (base + BitVec.ofNat 16 i) = bytes[i]) ∧
      (∀ b : Word, (b.toNat < base.toNat ∨ base.toNat + bytes.length ≤ b.toNat) → m'.read b = m.read b)

/-- R46, R165 (bound and atomicity are the spec's decision D9): a program that does not fit gives
`OutOfBounds(at, n)`, changes no state and aborts nothing; the same for Load at 0x8000. -/
def Obligations.TooLongProgramIsOutOfBounds : Prop :=
  ∀ (s : State) (bytes : List Byte) (base : Word), s.runStatus = .idle →
    (base.toNat + bytes.length > 0x10000 →
      hostOp (.loadProgram bytes base) s = .outOfBounds base bytes.length ∧
      stateAfter s (hostOp (.loadProgram bytes base) s) = s) ∧
    (bytes.length > 0x8000 →
      hostOp (.load bytes) s = .outOfBounds 0x8000 bytes.length ∧
      stateAfter s (hostOp (.load bytes) s) = s)

/-- The canonical form is canonical: two memories in it that read alike at every address are the same data. -/
def Obligations.CanonicalMemoryIsUnique : Prop :=
  ∀ m m' : Memory, m.wf = true → m'.wf = true → (∀ a : Word, m.read a = m'.read a) → m = m'

/-! ### Addressing resolver -/

/-- R82, R83, R86: the modes with an opcode. -/
def Obligations.ResolveUnindexedModes : Prop :=
  ∀ s : State,
    resolve .immediate s = .address s.pc ∧
    (∃ ea, resolve .zeroPage s = .address ea ∧ ea.toNat = (s.mem.read s.pc).toNat) ∧
    (∃ ea, resolve .absolute s = .address ea ∧
      ea.toNat = (s.mem.read (s.pc + 1)).toNat * 256 + (s.mem.read s.pc).toNat)

/-- R84, R85, R87, R88: the indexed modes; a zero-page sum wraps within the zero page, an absolute one at 0xFFFF. -/
def Obligations.ResolveIndexedModes : Prop :=
  ∀ s : State,
    (∃ ea, resolve .zeroPageX s = .address ea ∧ ea.toNat = ((s.mem.read s.pc).toNat + s.x.toNat) % 256) ∧
    (∃ ea, resolve .zeroPageY s = .address ea ∧ ea.toNat = ((s.mem.read s.pc).toNat + s.y.toNat) % 256) ∧
    (∃ ea, resolve .absoluteX s = .address ea ∧
      ea.toNat = ((s.mem.read (s.pc + 1)).toNat * 256 + (s.mem.read s.pc).toNat + s.x.toNat) % 65536) ∧
    (∃ ea, resolve .absoluteY s = .address ea ∧
      ea.toNat = ((s.mem.read (s.pc + 1)).toNat * 256 + (s.mem.read s.pc).toNat + s.y.toNat) % 65536)

/-- R89, R90: the indirect modes; the pointer's second byte is read at an address that wraps within the zero page.
`lo` and `hi` are the zero-page addresses of the two pointer bytes. -/
def Obligations.ResolveIndirectModes : Prop :=
  ∀ (s : State) (lo hi : Word),
    (lo.toNat = ((s.mem.read s.pc).toNat + s.x.toNat) % 256 →
      hi.toNat = ((s.mem.read s.pc).toNat + s.x.toNat + 1) % 256 →
      ∃ ea, resolve .indexedIndirectX s = .address ea ∧
        ea.toNat = (s.mem.read hi).toNat * 256 + (s.mem.read lo).toNat) ∧
    (lo.toNat = (s.mem.read s.pc).toNat →
      hi.toNat = ((s.mem.read s.pc).toNat + 1) % 256 →
      ∃ ea, resolve .indirectIndexedY s = .address ea ∧
        ea.toNat = ((s.mem.read hi).toNat * 256 + (s.mem.read lo).toNat + s.y.toNat) % 65536)

/-- R91: the resolver aborts on NonAddressing, and on no other mode; an instruction that used it so would abort with
`pc` and every other state as it was, recording its opcode byte and address. That the abort is a next state (log
entry 3) and that the recorded address is `pc - 1`, `pc` standing one past the opcode (R23; log entry 4), are the
model's choices. -/
def Obligations.ResolveNonAddressingAborts : Prop :=
  (∀ (mode : Mode) (s : State), (∃ reason, resolve mode s = .abort reason) ↔ mode = .nonAddressing) ∧
  (∀ s : State, resolve .nonAddressing s = .abort .nonAddressingResolve) ∧
  (∀ (opcode : Byte) (mutate : Word → State → State) (s : State),
    withAddress opcode .nonAddressing mutate s =
      .next { s with runStatus := .aborted .nonAddressingResolve opcode (s.pc - 1) })

/-! ### Flag update -/

/-- R109, R110: `set_zn(r)` sets Zero iff `r` is 0 and Negative to bit 7 of `r`, keeps the other six status bits, is
the formula of R110, writes nothing but status, and never sets both flags. -/
def Obligations.FlagUpdateSetsZeroAndNegative : Prop :=
  ∀ (s : State) (r : Byte),
    FlagsFrom s.status r (s.setZN r).status ∧
    (s.setZN r).status = (s.status &&& 0x7D) ||| (if r = 0 then 0x02 else 0x00) ||| (r &&& 0x80) ∧
    ¬ ((s.setZN r).status.getLsbD 1 = true ∧ (s.setZN r).status.getLsbD 7 = true) ∧
    s.setZN r = { s with status := (s.setZN r).status }

/-! ### Instructions: result, completion and everything else they leave -/

/-- R120: LDA immediate completes in every state, as a meaning (with `pc` at the operand byte) and as a step of a
running engine from the byte 0xA9 (with `pc` at the opcode byte). (That `pc` wraps past 0xFFFF is the spec's decision D2.) -/
def Obligations.LdaImmediateLoadsOperand : Prop :=
  (∀ (v : Byte) (s : State), ∃ t, exec (.ldaImm v) s = .next t ∧ t.a = v ∧ FlagsFrom s.status v t.status ∧
    t.pc = s.pc + 1 ∧ t.x = s.x ∧ t.y = s.y ∧ t.mem = s.mem ∧ t.runStatus = s.runStatus) ∧
  (∀ s : State, s.runStatus = .running → s.mem.read s.pc = 0xA9 → ∃ t, step s = .next t ∧ t.a = s.mem.read (s.pc + 1) ∧
    FlagsFrom s.status t.a t.status ∧ t.pc = s.pc + 2 ∧ t.x = s.x ∧ t.y = s.y ∧ t.mem = s.mem ∧
    t.runStatus = .running)

/-- R121: LDA zero-page completes in every state, as a meaning and as a step from the byte 0xA5. -/
def Obligations.LdaZeroPageLoadsByte : Prop :=
  (∀ (z : Byte) (s : State), ∃ t, exec (.ldaZp z) s = .next t ∧ t.a = s.mem.read (z.setWidth 16) ∧
    FlagsFrom s.status t.a t.status ∧ t.pc = s.pc + 1 ∧ t.x = s.x ∧ t.y = s.y ∧ t.mem = s.mem ∧
    t.runStatus = s.runStatus) ∧
  (∀ s : State, s.runStatus = .running → s.mem.read s.pc = 0xA5 → ∃ t, step s = .next t ∧
    t.a = s.mem.read ((s.mem.read (s.pc + 1)).setWidth 16) ∧ FlagsFrom s.status t.a t.status ∧
    t.pc = s.pc + 2 ∧ t.x = s.x ∧ t.y = s.y ∧ t.mem = s.mem ∧ t.runStatus = .running)

/-- R122: LDA absolute completes in every state, as a meaning and as a step from the byte 0xAD; the address is
`hh : ll`. -/
def Obligations.LdaAbsoluteLoadsByte : Prop :=
  (∀ (addr : Word) (s : State), ∃ t, exec (.ldaAbs addr) s = .next t ∧ t.a = s.mem.read addr ∧
    FlagsFrom s.status t.a t.status ∧ t.pc = s.pc + 2 ∧ t.x = s.x ∧ t.y = s.y ∧ t.mem = s.mem ∧
    t.runStatus = s.runStatus) ∧
  (∀ (s : State) (ea : Word), s.runStatus = .running → s.mem.read s.pc = 0xAD →
    ea.toNat = (s.mem.read (s.pc + 2)).toNat * 256 + (s.mem.read (s.pc + 1)).toNat → ∃ t, step s = .next t ∧
    t.a = s.mem.read ea ∧ FlagsFrom s.status t.a t.status ∧ t.pc = s.pc + 3 ∧ t.x = s.x ∧ t.y = s.y ∧
    t.mem = s.mem ∧ t.runStatus = .running)

/-- R123: every LDA form reads one byte at the effective address its mode resolves to, stores it into A, updates the
flags from it (Zero iff 0, Negative iff at least 0x80), and writes nothing else but `pc`. -/
def Obligations.LdaReadsAtResolvedAddress : Prop :=
  ∀ (s : State) (k : Opcode), s.runStatus = .running → decodeOpcode (s.mem.read s.pc) = some k → mnemonicOf k = .lda →
    ∃ ea t, resolve (modeOf k) (s.advancePc 1) = .address ea ∧ step s = .next t ∧ t.a = s.mem.read ea ∧
      (t.status.getLsbD 1 = true ↔ t.a = 0) ∧ (t.status.getLsbD 7 = true ↔ t.a.toNat ≥ 0x80) ∧
      (∀ bit, bit ≠ 1 → bit ≠ 7 → t.status.getLsbD bit = s.status.getLsbD bit) ∧
      t.x = s.x ∧ t.y = s.y ∧ t.mem = s.mem

/-- R130: TAX completes in every state, as a meaning and as a step from the byte 0xAA. -/
def Obligations.TaxCopiesAccumulator : Prop :=
  (∀ s : State, ∃ t, exec .tax s = .next t ∧ t.x = s.a ∧ FlagsFrom s.status s.a t.status ∧ t.a = s.a ∧
    t.pc = s.pc ∧ t.y = s.y ∧ t.mem = s.mem ∧ t.runStatus = s.runStatus) ∧
  (∀ s : State, s.runStatus = .running → s.mem.read s.pc = 0xAA → ∃ t, step s = .next t ∧ t.x = s.a ∧
    FlagsFrom s.status s.a t.status ∧ t.a = s.a ∧ t.pc = s.pc + 1 ∧ t.y = s.y ∧ t.mem = s.mem ∧
    t.runStatus = .running)

/-- R140: INX completes in every state, as a meaning and as a step from the byte 0xE8; X wraps at 8 bits and no bit
but Zero and Negative is written. -/
def Obligations.InxIncrementsWithWrap : Prop :=
  (∀ s : State, ∃ t, exec .inx s = .next t ∧ t.x.toNat = (s.x.toNat + 1) % 256 ∧
    FlagsFrom s.status t.x t.status ∧ t.a = s.a ∧ t.pc = s.pc ∧ t.y = s.y ∧ t.mem = s.mem ∧
    t.runStatus = s.runStatus) ∧
  (∀ s : State, s.runStatus = .running → s.mem.read s.pc = 0xE8 → ∃ t, step s = .next t ∧
    t.x.toNat = (s.x.toNat + 1) % 256 ∧ FlagsFrom s.status t.x t.status ∧ t.a = s.a ∧ t.pc = s.pc + 1 ∧
    t.y = s.y ∧ t.mem = s.mem ∧ t.runStatus = .running)

/-- R150: BRK completes in every state: the engine is Idle, `pc` is one past the BRK byte, and nothing else is
written; a Run that meets it as its first instruction ends Halted there. -/
def Obligations.BrkHalts : Prop :=
  (∀ s : State, exec .brk s = .next { s with runStatus := .idle }) ∧
  (∀ s : State, s.runStatus = .running → s.mem.read s.pc = 0x00 →
    step s = .next { s with pc := s.pc + 1, runStatus := .idle }) ∧
  (∀ (s : State) (fuel : Nat), s.runStatus = .idle → s.mem.read s.pc = 0x00 →
    run (fuel + 1) s = .halted { s with pc := s.pc + 1 })

/-- R41: every instruction completes in every state, with `pc` past its operand bytes; no memory access faults. -/
def Obligations.EveryInstructionCompletes : Prop :=
  ∀ (i : Instr) (s : State), ∃ t, exec i s = .next t ∧
    t.pc = s.pc + BitVec.ofNat 16 ((encode i).length - 1)

/-! ### Frames -/

/-- The frame of the loads (R21, R123): only A, status bits 1 and 7 and `pc` may change. -/
def Obligations.LoadFrame : Prop :=
  ∀ (i : Instr) (s t : State), (opcodeOf i = .ldaImm ∨ opcodeOf i = .ldaZp ∨ opcodeOf i = .ldaAbs) →
    exec i s = .next t →
    t.x = s.x ∧ t.y = s.y ∧ t.runStatus = s.runStatus ∧
    (∀ bit, bit ≠ 1 → bit ≠ 7 → t.status.getLsbD bit = s.status.getLsbD bit) ∧
    (∀ addr : Word, t.mem.read addr = s.mem.read addr)

/-- The frame of TAX and INX (R21, R130, R140): only X and status bits 1 and 7 may change. -/
def Obligations.IndexRegisterFrame : Prop :=
  ∀ (i : Instr) (s t : State), (i = .tax ∨ i = .inx) → exec i s = .next t →
    t.a = s.a ∧ t.y = s.y ∧ t.pc = s.pc ∧ t.runStatus = s.runStatus ∧
    (∀ bit, bit ≠ 1 → bit ≠ 7 → t.status.getLsbD bit = s.status.getLsbD bit) ∧
    (∀ addr : Word, t.mem.read addr = s.mem.read addr)

/-- The frame of BRK (R150): only the run status changes. -/
def Obligations.HaltFrame : Prop :=
  ∀ s t : State, exec .brk s = .next t →
    t.a = s.a ∧ t.x = s.x ∧ t.y = s.y ∧ t.status = s.status ∧ t.pc = s.pc ∧
    (∀ addr : Word, t.mem.read addr = s.mem.read addr)

/-! ### Steps -/

/-- When the bytes at `pc` decode to an instruction, a step of an engine that can run is `exec` of it, with `pc`
moved past the opcode byte and the run status Running (R101, R105). That a step of an Idle engine is the first step
of the host's Run is the model's choice (log entry 1). -/
def Obligations.StepRunsDecodedInstruction : Prop :=
  ∀ (s : State) (i : Instr) (rest : List Byte), s.canRun →
    decode (fetchWindow s.mem s.pc) = .ok i rest →
    step s = exec i { s with pc := s.pc + 1, runStatus := .running }

/-- R101: a step of a running engine is the run loop's step as the rule writes it, sub-steps (a) to (g) with the
resolver called on the mode of the opcode. -/
def Obligations.StepFollowsTheRunLoopRule : Prop :=
  ∀ s : State, s.runStatus = .running → step s = ruleStep s

/-- A step of an Idle engine is the first instruction step of the host's Run from the current `pc` (R100, R108). That
`step` takes the host to invoke Run is the model's choice (log entry 1). -/
def Obligations.IdleStepBeginsRun : Prop :=
  ∀ s : State, s.runStatus = .idle → step s = step { s with runStatus := .running }

/-- R64, R161 (the recorded byte and address are the spec's decision D3): a step of an engine that can run aborts with
`UndefinedOpcode` exactly when the byte fetched is not one of the six, and the byte is never skipped: a Run that meets
it first ends Aborted. That an Idle engine makes a step and that an abort is a next state are the model's choices (log
entries 1 and 3). -/
def Obligations.UndefinedOpcodeAborts : Prop :=
  (∀ s : State, s.canRun →
    ((∃ t op p, step s = .next t ∧ t.runStatus = .aborted .undefinedOpcode op p) ↔
      s.mem.read s.pc ∉ ([0x00, 0xA5, 0xA9, 0xAA, 0xAD, 0xE8] : List Byte))) ∧
  (∀ (s : State) (fuel : Nat), s.runStatus = .idle →
    s.mem.read s.pc ∉ ([0x00, 0xA5, 0xA9, 0xAA, 0xAD, 0xE8] : List Byte) →
    ∃ t, run (fuel + 1) s = .aborted .undefinedOpcode (s.mem.read s.pc) s.pc t)

/-- R104, R163 (the spec's decisions D3, D4 and D5): the aborting step changes only `pc`, to the opcode address + 1,
and the run status, which records the byte and its address. R163 keeps this state for determinism only. That an Idle
engine makes a step and that an abort is a next state are the model's choices (log entries 1 and 3). -/
def Obligations.AbortChangesOnlyPc : Prop :=
  ∀ s : State, s.canRun → decodeOpcode (s.mem.read s.pc) = none →
    step s = .next { s with
      pc := s.pc + 1, runStatus := .aborted .undefinedOpcode (s.mem.read s.pc) s.pc }

/-- R103: after the step of a defined opcode `pc` is the opcode's address plus the instruction's length, modulo
2^16. That an Idle engine makes a step is the model's choice (log entry 1). -/
def Obligations.PcAdvancesByLength : Prop :=
  ∀ (s t : State) (k : Opcode), step s = .next t → decodeOpcode (s.mem.read s.pc) = some k →
    t.pc.toNat = (s.pc.toNat + lengthOf k) % 65536

/-- A step answers a next state exactly when the engine is not aborted, never refuses, and on an aborted engine is the
fault that names the abort. That an Idle engine makes a step is the model's choice (log entry 1), and so is that an
aborted one, of which R164 says that no operation makes a step, answers a fault (log entry 3). -/
def Obligations.StepAnswersUnlessAborted : Prop :=
  ∀ s : State,
    (s.canRun ↔ ∃ t, step s = .next t) ∧
    (∀ r, step s ≠ .refused r) ∧
    (∀ reason op p, s.runStatus = .aborted reason op p → step s = .fault (.stoppedByAbort reason op p))

/-- R21: no instruction writes Y and no opcode's mode reads it: changing Y changes nothing else of a step. That an
Idle engine makes a step is the model's choice (log entry 1). -/
def Obligations.StepIgnoresY : Prop :=
  ∀ (s t : State) (v : Byte), step s = .next t → step { s with y := v } = .next { t with y := v }

/-- R28: no instruction reads a flag. Changing status before a step changes nothing but status after it, and there
each bit comes from one of two places: bits 1 and 7 are those of the unchanged run for LDA, TAX and INX, so the new
flags do not depend on the old; every other bit, and the whole status for BRK and an undefined byte, is as it was
changed to. That an Idle engine makes a step is the model's choice (log entry 1). -/
def Obligations.StepIgnoresStatus : Prop :=
  ∀ (s t : State) (v : Byte), step s = .next t →
    ∃ v', step { s with status := v } = .next { t with status := v' } ∧
      (∀ bit, bit ≠ 1 → bit ≠ 7 → v'.getLsbD bit = v.getLsbD bit) ∧
      (∀ k, decodeOpcode (s.mem.read s.pc) = some k → mnemonicOf k ≠ .brk →
        v'.getLsbD 1 = t.status.getLsbD 1 ∧ v'.getLsbD 7 = t.status.getLsbD 7) ∧
      (decodeOpcode (s.mem.read s.pc) = none ∨ decodeOpcode (s.mem.read s.pc) = some .brk → v' = v)

/-! ### The invariant -/

/-- Every step keeps the invariant: canonical memory, and an abort record that is true (the byte is undefined, it
stands at the recorded address, `pc` is one past it, and the resolver's abort never happens: R93, R161, R163). That an
Idle engine makes a step and that an abort is a next state are the model's choices (log entries 1 and 3). -/
def Obligations.StepKeepsInv : Prop :=
  ∀ s t : State, s.Inv → step s = .next t → t.Inv

/-- Every step keeps memory, Y and the six storage bits of status, whatever it runs and however it ends (R21, R27, R51,
R104): with Y, the bits and the bytes as they are, they stay so. That an Idle engine makes a step and that an abort is
a next state are the model's choices (log entries 1 and 3). -/
def Obligations.StepKeepsMemoryYAndStorageBits : Prop :=
  ∀ s t : State, step s = .next t →
    t.y = s.y ∧ t.mem = s.mem ∧ (∀ addr : Word, t.mem.read addr = s.mem.read addr) ∧
    (∀ bit, bit ≠ 1 → bit ≠ 7 → t.status.getLsbD bit = s.status.getLsbD bit)

/-- The state after reset meets the invariant. -/
def Obligations.ResetMeetsInv : Prop := State.reset.Inv

/-- Every host operation keeps the invariant (R190, R164). -/
def Obligations.HostOpsKeepInv : Prop :=
  ∀ (op : HostOp) (s : State), s.Inv → (stateAfter s (hostOp op s)).Inv

/-! ### Runs -/

/-- Over a whole run that halts, memory, Y and the six storage bits of status are as at its start (R21, R27, R51),
and the engine is Idle (R33). -/
def Obligations.RunKeepsMemoryAndY : Prop :=
  ∀ (fuel : Nat) (s t : State), run fuel s = .halted t →
    t.runStatus = .idle ∧ t.y = s.y ∧ (∀ addr : Word, t.mem.read addr = s.mem.read addr) ∧
    (∀ bit, bit ≠ 1 → bit ≠ 7 → t.status.getLsbD bit = s.status.getLsbD bit)

/-- A run ends Halted only just past a BRK byte, and Aborted only on an undefined byte that stands in memory, never
through the resolver (R93, R100, R107). -/
def Obligations.RunEndsAtBrkOrUndefinedByte : Prop :=
  ∀ (fuel : Nat) (s : State),
    (∀ t, run fuel s = .halted t → s.mem.read (t.pc - 1) = 0x00) ∧
    (∀ reason op p t, run fuel s = .aborted reason op p t →
      reason = .undefinedOpcode ∧ decodeOpcode op = none ∧ s.mem.read p = op)

/-- The outcome of a run that ends does not depend on the fuel beyond what it needs (R100, R106). -/
def Obligations.RunOutcomeIsStable : Prop :=
  ∀ (fuel more : Nat) (s : State),
    (∀ t, run fuel s = .halted t → run (fuel + more) s = .halted t) ∧
    (∀ reason op p t, run fuel s = .aborted reason op p t → run (fuel + more) s = .aborted reason op p t)

/-- R106: where no byte of memory is 0x00 or undefined, no run ends, whatever the fuel. -/
def Obligations.RunWithoutBrkNeverEnds : Prop :=
  ∀ (s : State) (fuel : Nat), s.runStatus = .idle →
    (∀ addr : Word, s.mem.read addr ≠ 0x00 ∧ decodeOpcode (s.mem.read addr) ≠ none) →
    ∃ t, run fuel s = .outOfFuel t

/-- Run is iterated step: a run that halts is some number of steps of the machine behind the host's interface, at
least one and at most the fuel. That the first of them, from an Idle engine, is a step at all is the model's choice
(log entry 1). -/
def Obligations.RunIsIteratedStep : Prop :=
  ∀ (fuel : Nat) (s t : State), run fuel s = .halted t →
    ∃ n, 0 < n ∧ n ≤ fuel ∧ Sys2Proof.core.run n s = .next t

/-- R151: a Run on a freshly constructed engine fetches 0x00 at 0x0000 and halts with `pc = 0x0001`. -/
def Obligations.ConstructThenRunHalts : Prop :=
  ∀ fuel : Nat, run (fuel + 1) State.construct = .halted { State.construct with pc := 0x0001 }

/-! ### Host interface -/

/-- R180: after Construct every register, status and `pc` are zero, every byte is zero and the engine is Idle. -/
def Obligations.ConstructZeroesEverything : Prop :=
  State.construct.a = 0 ∧ State.construct.x = 0 ∧ State.construct.y = 0 ∧ State.construct.status = 0 ∧
  State.construct.pc = 0 ∧ State.construct.runStatus = .idle ∧
  (∀ addr : Word, State.construct.mem.read addr = 0)

/-- R181: Reset of an Idle engine clears A, X and status, takes `pc` from the reset vector and leaves Y and memory;
on an aborted engine it is refused. -/
def Obligations.ResetKeepsYAndMemory : Prop :=
  (∀ s : State, s.runStatus = .idle → ∃ t, hostOp .reset s = .ok t ∧ t.a = 0 ∧ t.x = 0 ∧ t.status = 0 ∧
    t.pc.toNat = (s.mem.read 0xFFFD).toNat * 256 + (s.mem.read 0xFFFC).toNat ∧
    t.y = s.y ∧ t.mem = s.mem ∧ t.runStatus = .idle) ∧
  (∀ (s : State) (reason : AbortReason) (op : Byte) (p : Word), s.runStatus = .aborted reason op p →
    hostOp .reset s = .refused (.engineAborted reason op p))

/-- The model's state after reset is Reset of the constructed engine (R180, R181; log entry 2). -/
def Obligations.ResetStateIsResetOfConstruct : Prop :=
  hostOp .reset State.construct = .ok State.reset

/-- R182, R183 (D9 and D10 are the spec's decisions): Load of a program of at most 0x8000 bytes copies it to 0x8000
and then sets the reset vector to 0x8000, touching no register. -/
def Obligations.LoadPlacesProgramAndVector : Prop :=
  ∀ (s : State) (program : List Byte), s.mem.wf = true → s.runStatus = .idle → program.length ≤ 0x8000 →
    ∃ t, hostOp (.load program) s = .ok t ∧
      t.a = s.a ∧ t.x = s.x ∧ t.y = s.y ∧ t.status = s.status ∧ t.pc = s.pc ∧ t.runStatus = .idle ∧
      t.mem.read 0xFFFC = 0x00 ∧ t.mem.read 0xFFFD = 0x80 ∧
      (∀ (i : Nat) (h : i < program.length), i ≠ 0x7FFC → i ≠ 0x7FFD →
        t.mem.read (0x8000 + BitVec.ofNat 16 i) = program[i]) ∧
      (∀ b : Word, b ≠ 0xFFFC → b ≠ 0xFFFD → (b.toNat < 0x8000 ∨ 0x8000 + program.length ≤ b.toNat) →
        t.mem.read b = s.mem.read b)

/-- R184: the state after the boot sequence Construct, Load, Reset, for every program that fits. -/
def Obligations.BootState : Prop :=
  ∀ program : List Byte, program.length ≤ 0x8000 →
    ∃ t, boot program = .ok t ∧
      t.a = 0 ∧ t.x = 0 ∧ t.y = 0 ∧ t.status = 0 ∧ t.pc = 0x8000 ∧ t.runStatus = .idle ∧
      t.mem.read 0xFFFC = 0x00 ∧ t.mem.read 0xFFFD = 0x80 ∧
      (∀ (i : Nat) (h : i < program.length), i ≠ 0x7FFC → i ≠ 0x7FFD →
        t.mem.read (0x8000 + BitVec.ofNat 16 i) = program[i]) ∧
      (∀ b : Word, b ≠ 0xFFFC → b ≠ 0xFFFD → (b.toNat < 0x8000 ∨ 0x8000 + program.length ≤ b.toNat) →
        t.mem.read b = 0x00)

/-- R190: on an Idle engine the host operations `write`, `write16` and a `load_program` that fits are done, with the
memory that `Memory.write`, `Memory.write16` and `Memory.loadProgram` give; A, X, Y, status, `pc` and the run status
are as before. (The bound of `load_program` is the spec's decision D9.) -/
def Obligations.HostMemoryOpsWriteOnlyMemory : Prop :=
  ∀ s : State, s.runStatus = .idle →
    (∀ (addr : Word) (v : Byte), ∃ t, hostOp (.write addr v) s = .ok t ∧ t.mem = s.mem.write addr v ∧
      t.a = s.a ∧ t.x = s.x ∧ t.y = s.y ∧ t.status = s.status ∧ t.pc = s.pc ∧ t.runStatus = .idle) ∧
    (∀ addr v : Word, ∃ t, hostOp (.write16 addr v) s = .ok t ∧ t.mem = s.mem.write16 addr v ∧
      t.a = s.a ∧ t.x = s.x ∧ t.y = s.y ∧ t.status = s.status ∧ t.pc = s.pc ∧ t.runStatus = .idle) ∧
    (∀ (bytes : List Byte) (base : Word), base.toNat + bytes.length ≤ 0x10000 →
      ∃ t, hostOp (.loadProgram bytes base) s = .ok t ∧ s.mem.loadProgram bytes base = some t.mem ∧
        t.a = s.a ∧ t.x = s.x ∧ t.y = s.y ∧ t.status = s.status ∧ t.pc = s.pc ∧ t.runStatus = .idle)

/-- R192 (the spec's decision D7): after a host snapshot each chosen register holds exactly the value written, all
eight status bits included, the others are as before, and so with memory bytes (written at distinct addresses). -/
def Obligations.SnapshotSetsExactly : Prop :=
  ∀ (s : State) (snap : Snapshot), s.mem.wf = true → s.runStatus = .idle → (snap.bytes.map Prod.fst).Nodup →
    ∃ t, hostOp (.snapshot snap) s = .ok t ∧ t.runStatus = .idle ∧
      (∀ v, snap.a = some v → t.a = v) ∧ (snap.a = none → t.a = s.a) ∧
      (∀ v, snap.x = some v → t.x = v) ∧ (snap.x = none → t.x = s.x) ∧
      (∀ v, snap.y = some v → t.y = v) ∧ (snap.y = none → t.y = s.y) ∧
      (∀ v, snap.status = some v → t.status = v) ∧ (snap.status = none → t.status = s.status) ∧
      (∀ v, snap.pc = some v → t.pc = v) ∧ (snap.pc = none → t.pc = s.pc) ∧
      (∀ addr v, (addr, v) ∈ snap.bytes → t.mem.read addr = v) ∧
      (∀ addr, addr ∉ snap.bytes.map Prod.fst → t.mem.read addr = s.mem.read addr)

/-- R164, R191 (the spec's decision D4): on an aborted engine every host operation and Run are refused and change
nothing, and the read-out stays possible; on a running one every host operation, Run and the read-out are refused. -/
def Obligations.HostRefusedUnlessIdle : Prop :=
  ∀ (s : State) (op : HostOp) (fuel : Nat),
    (∀ reason opcode p, s.runStatus = .aborted reason opcode p →
      hostOp op s = .refused (.engineAborted reason opcode p) ∧ stateAfter s (hostOp op s) = s ∧
      run fuel s = .refused (.engineAborted reason opcode p) ∧
      readOut s = .ok ⟨s.a, s.x, s.y, s.status, s.pc, s.mem⟩) ∧
    (s.runStatus = .running →
      hostOp op s = .refused .engineRunning ∧ stateAfter s (hostOp op s) = s ∧
      run fuel s = .refused .engineRunning ∧ readOut s = .error .engineRunning)

/-- R193: after a run that halts, the read-out gives every register and every memory byte of the final state. -/
def Obligations.ReadOutAfterHalt : Prop :=
  ∀ (fuel : Nat) (s t : State), run fuel s = .halted t →
    ∃ r, readOut t = .ok r ∧ r.a = t.a ∧ r.x = t.x ∧ r.y = t.y ∧ r.status = t.status ∧ r.pc = t.pc ∧
      ∀ addr : Word, r.mem.read addr = t.mem.read addr
end

