-- ==== Sys2Proof/Laws/Decode.lean ====
section
/-! SUPPORT. The laws of the decoder and the encoder. -/

namespace Sys2Proof

/-- The bits of `hi : lo` (R11). -/
theorem wordOf_getLsbD (hi lo : Byte) (i : Nat) :
    (wordOf hi lo).getLsbD i = if i < 8 then lo.getLsbD i else hi.getLsbD (i - 8) := by
  have h : (wordOf hi lo).getLsbD i = _ := BitVec.getLsbD_append (x := hi) (y := lo)
  rw [h]

/-- The low byte of `hi : lo`. -/
@[simp] theorem lowByte_wordOf (hi lo : Byte) : lowByte (wordOf hi lo) = lo := by
  apply BitVec.eq_of_getLsbD_eq
  intro i hi'
  rw [lowByte, BitVec.getLsbD_extractLsb', wordOf_getLsbD]
  simp [hi']

/-- The high byte of `hi : lo`. -/
@[simp] theorem highByte_wordOf (hi lo : Byte) : highByte (wordOf hi lo) = hi := by
  apply BitVec.eq_of_getLsbD_eq
  intro i hi'
  rw [highByte, BitVec.getLsbD_extractLsb', wordOf_getLsbD]
  simp [hi']

/-- A word is its high byte over its low byte. -/
@[simp] theorem wordOf_high_low (v : Word) : wordOf (highByte v) (lowByte v) = v := by
  apply BitVec.eq_of_getLsbD_eq
  intro i hi
  rw [wordOf_getLsbD, highByte, lowByte, BitVec.getLsbD_extractLsb', BitVec.getLsbD_extractLsb']
  by_cases h : i < 8
  · simp [h]
  · have h8 : i - 8 < 8 := by omega
    have hi' : 8 + (i - 8) = i := by omega
    simp [h, h8, hi']

/-- `hi : lo` as a number (R11). -/
theorem wordOf_toNat (hi lo : Byte) : (wordOf hi lo).toNat = hi.toNat * 256 + lo.toNat := by
  have h := lo.isLt
  rw [wordOf, BitVec.toNat_append, ← Nat.shiftLeft_add_eq_or_of_lt h, Nat.shiftLeft_eq]

/-- `v[7:0]` as a number. -/
theorem lowByte_toNat (v : Word) : (lowByte v).toNat = v.toNat % 256 := by simp [lowByte]

/-- `v[15:8]` as a number. -/
theorem highByte_toNat (v : Word) : (highByte v).toNat = v.toNat / 256 := by
  simp only [highByte, BitVec.extractLsb'_toNat, Nat.shiftRight_eq_div_pow]
  omega

/-- The encoder's opcode byte decodes to its opcode. -/
@[simp] theorem decodeOpcode_opcodeByte (k : Opcode) : decodeOpcode (opcodeByte k) = some k := by
  cases k <;> rfl

/-- A byte that decodes is the encoder's byte of its opcode. -/
theorem opcodeByte_of_decodeOpcode {b : Byte} {k : Opcode} (h : decodeOpcode b = some k) : b = opcodeByte k := by
  unfold decodeOpcode at h
  repeat' split at h
  all_goals first | (cases h; assumption) | cases h

/-- The instruction built from an opcode has that opcode. -/
@[simp] theorem opcodeOf_instrOf (k : Opcode) (b1 b2 : Byte) : opcodeOf (instrOf k b1 b2) = k := by
  cases k <;> rfl

/-- The number of operand bytes the encoder writes is the mode's. -/
theorem operandBytesOf_length (i : Instr) : (operandBytesOf i).length = operandBytes (modeOf (opcodeOf i)) := by
  cases i <;> rfl

/-- The decoder on a non-empty list, by the verdict on its first byte: everything it can answer. -/
theorem decode_cons (op : Byte) (rest : List Byte) :
    (decodeOpcode op = none ∧ decode (op :: rest) = .undefinedOpcode op) ∨
    (∃ k, decodeOpcode op = some k ∧ rest.length < operandBytes (modeOf k) ∧ decode (op :: rest) = .truncated) ∨
    (∃ k, decodeOpcode op = some k ∧ operandBytes (modeOf k) ≤ rest.length ∧
      decode (op :: rest) =
        .ok (instrOf k (rest.getD 0 0) (rest.getD 1 0)) (rest.drop (operandBytes (modeOf k)))) := by
  cases hk : decodeOpcode op with
  | none => exact .inl ⟨rfl, by simp only [decode, hk]⟩
  | some k =>
    by_cases h : rest.length < operandBytes (modeOf k)
    · exact .inr (.inl ⟨k, rfl, h, by simp only [decode, hk, if_pos h]⟩)
    · exact .inr (.inr ⟨k, rfl, by omega, by simp only [decode, hk, if_neg h]⟩)

/-- On three bytes the decoder answers an instruction or an undefined opcode, never truncated. -/
theorem decode_three (op b1 b2 : Byte) :
    decode [op, b1, b2] =
      match decodeOpcode op with
      | none => .undefinedOpcode op
      | some k => .ok (instrOf k b1 b2) ([b1, b2].drop (operandBytes (modeOf k))) := by
  cases hk : decodeOpcode op with
  | none => simp only [decode, hk]
  | some k => cases k <;> simp only [decode, hk] <;> rfl

end Sys2Proof
end

