-- ==== Sys2Proof/Laws/Memory.lean ====
section
/-! SUPPORT. The laws of the memory: what a read gives after a store, and that every memory operation keeps the
canonical form. -/

namespace Sys2Proof.Machine

/-! ### The canonical form -/

/-- The canonical form from a bound on, for a non-empty list, as propositions. -/
theorem wfFrom_cons {low k : Nat} {v : Byte} {rest : Memory} :
    Memory.wfFrom low ((k, v) :: rest) = true ↔
      low ≤ k ∧ k < Config.memorySize ∧ v ≠ Config.unlistedByte ∧ Memory.wfFrom (k + 1) rest = true := by
  simp [Memory.wfFrom, and_assoc]

/-- A lower bound may be lowered. -/
theorem wfFrom_mono {m : Memory} {low low' : Nat} (h : low' ≤ low) (hm : Memory.wfFrom low m = true) :
    Memory.wfFrom low' m = true := by
  cases m with
  | nil => rfl
  | cons c rest =>
    rw [wfFrom_cons] at hm ⊢
    exact ⟨Nat.le_trans h hm.1, hm.2⟩

/-- Below its bound a canonical memory lists nothing. -/
theorem lookup_below {m : Memory} {low n : Nat} (hm : Memory.wfFrom low m = true) (h : n < low) :
    m.lookup n = Config.unlistedByte := by
  induction m generalizing low with
  | nil => rfl
  | cons c rest ih =>
    obtain ⟨hk, -, -, hr⟩ := wfFrom_cons.mp hm
    have hne : c.1 ≠ n := by omega
    simp only [Memory.lookup, if_neg hne]
    exact ih hr (by omega)

/-- `consCell` keeps the canonical form. -/
theorem consCell_wf {n low : Nat} {v : Byte} {rest : Memory} (hl : low ≤ n) (hn : n < Config.memorySize)
    (hr : Memory.wfFrom (n + 1) rest = true) : Memory.wfFrom low (Memory.consCell n v rest) = true := by
  unfold Memory.consCell
  split
  · exact wfFrom_mono (by omega) hr
  · exact wfFrom_cons.mpr ⟨hl, hn, ‹_›, hr⟩

/-- `store` keeps the canonical form. -/
theorem store_wfFrom {m : Memory} {low n : Nat} {v : Byte} (hm : Memory.wfFrom low m = true) (hl : low ≤ n)
    (hn : n < Config.memorySize) : Memory.wfFrom low (m.store n v) = true := by
  induction m generalizing low with
  | nil => exact consCell_wf hl hn rfl
  | cons c rest ih =>
    obtain ⟨hk, hks, hv, hr⟩ := wfFrom_cons.mp hm
    simp only [Memory.store]
    split
    · exact consCell_wf hl hn (wfFrom_cons.mpr ⟨by omega, hks, hv, hr⟩)
    · split
      · exact consCell_wf hl hn (by simpa [‹n = c.1›] using hr)
      · exact wfFrom_cons.mpr ⟨hk, hks, hv, ih hr (by omega)⟩

/-- `store` keeps the canonical form of a whole memory. -/
theorem store_wf {m : Memory} {n : Nat} {v : Byte} (hm : m.wf = true) (hn : n < Config.memorySize) :
    (m.store n v).wf = true := store_wfFrom hm (Nat.zero_le n) hn

/-- `write` keeps the canonical form. -/
theorem write_wf {m : Memory} (hm : m.wf = true) (addr : Word) (v : Byte) : (m.write addr v).wf = true :=
  store_wf hm addr.isLt

/-- `write16` keeps the canonical form. -/
theorem write16_wf {m : Memory} (hm : m.wf = true) (addr v : Word) : (m.write16 addr v).wf = true :=
  write_wf (write_wf hm _ _) _ _

/-- `set_reset_vector` keeps the canonical form. -/
theorem setResetVector_wf {m : Memory} (hm : m.wf = true) (addr : Word) : (m.setResetVector addr).wf = true :=
  write16_wf hm _ _

/-- Copying bytes keeps the canonical form when they fit. -/
theorem writeBytes_wf {m : Memory} {bs : List Byte} {base : Nat} (hm : m.wf = true)
    (h : base + bs.length ≤ Config.memorySize) : (m.writeBytes base bs).wf = true := by
  induction bs generalizing m base with
  | nil => exact hm
  | cons b bs ih =>
    simp only [List.length_cons] at h
    exact ih (store_wf hm (by omega)) (by omega)

/-- `load_program` keeps the canonical form. -/
theorem loadProgram_wf {m m' : Memory} {bs : List Byte} {base : Word} (hm : m.wf = true)
    (h : m.loadProgram bs base = some m') : m'.wf = true := by
  unfold Memory.loadProgram at h
  split at h
  · cases h
  · cases h
    exact writeBytes_wf hm (by omega)

/-- The writes of a snapshot keep the canonical form. -/
theorem writePairs_wf {m : Memory} (hm : m.wf = true) (ps : List (Word × Byte)) : (writePairs m ps).wf = true := by
  induction ps generalizing m with
  | nil => exact hm
  | cons p ps ih => exact ih (write_wf hm _ _)

/-! ### Reads after stores -/

/-- Looking up through `consCell`. -/
theorem lookup_consCell {n k : Nat} {v : Byte} {rest : Memory} (hr : Memory.wfFrom (n + 1) rest = true) :
    (Memory.consCell n v rest).lookup k = if k = n then v else rest.lookup k := by
  unfold Memory.consCell
  by_cases hk : k = n
  · subst hk
    split
    · simp_all [lookup_below hr (Nat.lt_succ_self k)]
    · simp [Memory.lookup]
  · have hk' : n ≠ k := fun h => hk h.symm
    rw [if_neg hk]
    split <;> simp [Memory.lookup, hk']

/-- A lookup after a store, for every cell number. -/
theorem lookup_store {m : Memory} {low n k : Nat} {v : Byte} (hm : Memory.wfFrom low m = true) :
    (m.store n v).lookup k = if k = n then v else m.lookup k := by
  induction m generalizing low with
  | nil => exact lookup_consCell rfl
  | cons c rest ih =>
    obtain ⟨hk, hks, hv, hr⟩ := wfFrom_cons.mp hm
    simp only [Memory.store]
    split
    · exact lookup_consCell (wfFrom_cons.mpr ⟨by omega, hks, hv, hr⟩)
    · split
      · rename_i _ hn
        subst hn
        rw [lookup_consCell hr]
        by_cases hkc : k = c.1
        · simp [hkc]
        · have : c.1 ≠ k := fun h => hkc h.symm
          simp [Memory.lookup, hkc, this]
      · by_cases hck : c.1 = k
        · have : k ≠ n := by omega
          simp [Memory.lookup, hck, this]
        · simp [Memory.lookup, hck, ih hr]

/-- A read after a store, by cell number. -/
theorem read_store {m : Memory} {n : Nat} {v : Byte} (hm : m.wf = true) (b : Word) :
    (m.store n v).read b = if b.toNat = n then v else m.read b := lookup_store hm

/-- A read after a write: the written byte at its address, what was there before everywhere else. -/
theorem read_write_eq {m : Memory} (hm : m.wf = true) (a b : Word) (v : Byte) :
    (m.write a v).read b = if b = a then v else m.read b := by
  simp only [Memory.write, read_store hm, BitVec.toNat_inj]

/-- A read after copying bytes that fit: the copied byte inside the range, what was there before outside it. -/
theorem read_writeBytes {bs : List Byte} {m : Memory} {base : Nat} (hm : m.wf = true)
    (hfit : base + bs.length ≤ Config.memorySize) (b : Word) :
    (m.writeBytes base bs).read b =
      if h : base ≤ b.toNat ∧ b.toNat < base + bs.length then bs[b.toNat - base]'(by omega) else m.read b := by
  induction bs generalizing m base with
  | nil => rw [dif_neg (by simp only [List.length_nil]; omega)]; rfl
  | cons x bs ih =>
    simp only [List.length_cons] at hfit
    rw [Memory.writeBytes, ih (store_wf hm (by omega)) (by omega), read_store hm]
    by_cases h1 : b.toNat = base
    · rw [dif_neg (by omega), if_pos h1, dif_pos (by simp only [List.length_cons]; omega)]
      simp [h1]
    · by_cases h2 : base + 1 ≤ b.toNat ∧ b.toNat < base + 1 + bs.length
      · have hi : b.toNat - base = (b.toNat - (base + 1)) + 1 := by omega
        rw [dif_pos h2, dif_pos (by simp only [List.length_cons]; omega)]
        simp [hi]
      · rw [dif_neg h2, if_neg h1, dif_neg (by simp only [List.length_cons]; omega)]

/-- The writes of a snapshot leave an address they do not list. -/
theorem read_writePairs_other {ps : List (Word × Byte)} {m : Memory} (hm : m.wf = true) {a : Word}
    (ha : a ∉ ps.map Prod.fst) : (writePairs m ps).read a = m.read a := by
  induction ps generalizing m with
  | nil => rfl
  | cons p ps ih =>
    rw [List.map_cons, List.mem_cons, not_or] at ha
    rw [writePairs, ih (write_wf hm _ _) ha.2, read_write_eq hm, if_neg ha.1]

/-- A read of a fresh memory gives the unlisted byte. -/
@[simp] theorem read_nil (a : Word) : Memory.read [] a = Config.unlistedByte := rfl

end Sys2Proof.Machine
end

