-- ==== Sys2Proof/Laws/State.lean ====
section
/-! SUPPORT. One lemma per field per update of State, true by rfl, so that no later proof unfolds a record update. -/

namespace Sys2Proof.Machine

variable (s : State)

/-! ### setA -/

@[simp] theorem setA_a (v : Byte) : (s.setA v).a = v := rfl
@[simp] theorem setA_x (v : Byte) : (s.setA v).x = s.x := rfl
@[simp] theorem setA_y (v : Byte) : (s.setA v).y = s.y := rfl
@[simp] theorem setA_status (v : Byte) : (s.setA v).status = s.status := rfl
@[simp] theorem setA_pc (v : Byte) : (s.setA v).pc = s.pc := rfl
@[simp] theorem setA_mem (v : Byte) : (s.setA v).mem = s.mem := rfl
@[simp] theorem setA_runStatus (v : Byte) : (s.setA v).runStatus = s.runStatus := rfl
/-! ### setX -/

@[simp] theorem setX_a (v : Byte) : (s.setX v).a = s.a := rfl
@[simp] theorem setX_x (v : Byte) : (s.setX v).x = v := rfl
@[simp] theorem setX_y (v : Byte) : (s.setX v).y = s.y := rfl
@[simp] theorem setX_status (v : Byte) : (s.setX v).status = s.status := rfl
@[simp] theorem setX_pc (v : Byte) : (s.setX v).pc = s.pc := rfl
@[simp] theorem setX_mem (v : Byte) : (s.setX v).mem = s.mem := rfl
@[simp] theorem setX_runStatus (v : Byte) : (s.setX v).runStatus = s.runStatus := rfl
/-! ### setStatus -/

@[simp] theorem setStatus_a (v : Byte) : (s.setStatus v).a = s.a := rfl
@[simp] theorem setStatus_x (v : Byte) : (s.setStatus v).x = s.x := rfl
@[simp] theorem setStatus_y (v : Byte) : (s.setStatus v).y = s.y := rfl
@[simp] theorem setStatus_status (v : Byte) : (s.setStatus v).status = v := rfl
@[simp] theorem setStatus_pc (v : Byte) : (s.setStatus v).pc = s.pc := rfl
@[simp] theorem setStatus_mem (v : Byte) : (s.setStatus v).mem = s.mem := rfl
@[simp] theorem setStatus_runStatus (v : Byte) : (s.setStatus v).runStatus = s.runStatus := rfl
/-! ### advancePc -/

@[simp] theorem advancePc_a (n : Nat) : (s.advancePc n).a = s.a := rfl
@[simp] theorem advancePc_x (n : Nat) : (s.advancePc n).x = s.x := rfl
@[simp] theorem advancePc_y (n : Nat) : (s.advancePc n).y = s.y := rfl
@[simp] theorem advancePc_status (n : Nat) : (s.advancePc n).status = s.status := rfl
@[simp] theorem advancePc_pc (n : Nat) : (s.advancePc n).pc = s.pc + BitVec.ofNat 16 n := rfl
@[simp] theorem advancePc_mem (n : Nat) : (s.advancePc n).mem = s.mem := rfl
@[simp] theorem advancePc_runStatus (n : Nat) : (s.advancePc n).runStatus = s.runStatus := rfl
/-! ### setRunStatus -/

@[simp] theorem setRunStatus_a (r : RunStatus) : (s.setRunStatus r).a = s.a := rfl
@[simp] theorem setRunStatus_x (r : RunStatus) : (s.setRunStatus r).x = s.x := rfl
@[simp] theorem setRunStatus_y (r : RunStatus) : (s.setRunStatus r).y = s.y := rfl
@[simp] theorem setRunStatus_status (r : RunStatus) : (s.setRunStatus r).status = s.status := rfl
@[simp] theorem setRunStatus_pc (r : RunStatus) : (s.setRunStatus r).pc = s.pc := rfl
@[simp] theorem setRunStatus_mem (r : RunStatus) : (s.setRunStatus r).mem = s.mem := rfl
@[simp] theorem setRunStatus_runStatus (r : RunStatus) : (s.setRunStatus r).runStatus = r := rfl
/-! ### setMem -/

@[simp] theorem setMem_a (m : Memory) : (s.setMem m).a = s.a := rfl
@[simp] theorem setMem_x (m : Memory) : (s.setMem m).x = s.x := rfl
@[simp] theorem setMem_y (m : Memory) : (s.setMem m).y = s.y := rfl
@[simp] theorem setMem_status (m : Memory) : (s.setMem m).status = s.status := rfl
@[simp] theorem setMem_pc (m : Memory) : (s.setMem m).pc = s.pc := rfl
@[simp] theorem setMem_mem (m : Memory) : (s.setMem m).mem = m := rfl
@[simp] theorem setMem_runStatus (m : Memory) : (s.setMem m).runStatus = s.runStatus := rfl
/-! ### setZN -/

@[simp] theorem setZN_a (r : Byte) : (s.setZN r).a = s.a := rfl
@[simp] theorem setZN_x (r : Byte) : (s.setZN r).x = s.x := rfl
@[simp] theorem setZN_y (r : Byte) : (s.setZN r).y = s.y := rfl
@[simp] theorem setZN_status (r : Byte) : (s.setZN r).status = updateZN s.status r := rfl
@[simp] theorem setZN_pc (r : Byte) : (s.setZN r).pc = s.pc := rfl
@[simp] theorem setZN_mem (r : Byte) : (s.setZN r).mem = s.mem := rfl
@[simp] theorem setZN_runStatus (r : Byte) : (s.setZN r).runStatus = s.runStatus := rfl
/-! ### takeAbort -/

@[simp] theorem takeAbort_a (reason : AbortReason) (opcode : Byte) (addr : Word) : (takeAbort reason opcode addr s).a = s.a := rfl
@[simp] theorem takeAbort_x (reason : AbortReason) (opcode : Byte) (addr : Word) : (takeAbort reason opcode addr s).x = s.x := rfl
@[simp] theorem takeAbort_y (reason : AbortReason) (opcode : Byte) (addr : Word) : (takeAbort reason opcode addr s).y = s.y := rfl
@[simp] theorem takeAbort_status (reason : AbortReason) (opcode : Byte) (addr : Word) : (takeAbort reason opcode addr s).status = s.status := rfl
@[simp] theorem takeAbort_pc (reason : AbortReason) (opcode : Byte) (addr : Word) : (takeAbort reason opcode addr s).pc = s.pc := rfl
@[simp] theorem takeAbort_mem (reason : AbortReason) (opcode : Byte) (addr : Word) : (takeAbort reason opcode addr s).mem = s.mem := rfl
@[simp] theorem takeAbort_runStatus (reason : AbortReason) (opcode : Byte) (addr : Word) : (takeAbort reason opcode addr s).runStatus = .aborted reason opcode addr := rfl
/-! ### haltRun -/

@[simp] theorem haltRun_a  : (haltRun s).a = s.a := rfl
@[simp] theorem haltRun_x  : (haltRun s).x = s.x := rfl
@[simp] theorem haltRun_y  : (haltRun s).y = s.y := rfl
@[simp] theorem haltRun_status  : (haltRun s).status = s.status := rfl
@[simp] theorem haltRun_pc  : (haltRun s).pc = s.pc := rfl
@[simp] theorem haltRun_mem  : (haltRun s).mem = s.mem := rfl
@[simp] theorem haltRun_runStatus  : (haltRun s).runStatus = .idle := rfl
/-! ### loadA -/

@[simp] theorem loadA_a (v : Byte) : (loadA v s).a = v := rfl
@[simp] theorem loadA_x (v : Byte) : (loadA v s).x = s.x := rfl
@[simp] theorem loadA_y (v : Byte) : (loadA v s).y = s.y := rfl
@[simp] theorem loadA_status (v : Byte) : (loadA v s).status = updateZN s.status v := rfl
@[simp] theorem loadA_pc (v : Byte) : (loadA v s).pc = s.pc := rfl
@[simp] theorem loadA_mem (v : Byte) : (loadA v s).mem = s.mem := rfl
@[simp] theorem loadA_runStatus (v : Byte) : (loadA v s).runStatus = s.runStatus := rfl
/-! ### loadX -/

@[simp] theorem loadX_a (v : Byte) : (loadX v s).a = s.a := rfl
@[simp] theorem loadX_x (v : Byte) : (loadX v s).x = v := rfl
@[simp] theorem loadX_y (v : Byte) : (loadX v s).y = s.y := rfl
@[simp] theorem loadX_status (v : Byte) : (loadX v s).status = updateZN s.status v := rfl
@[simp] theorem loadX_pc (v : Byte) : (loadX v s).pc = s.pc := rfl
@[simp] theorem loadX_mem (v : Byte) : (loadX v s).mem = s.mem := rfl
@[simp] theorem loadX_runStatus (v : Byte) : (loadX v s).runStatus = s.runStatus := rfl
/-! ### loadAFrom -/

@[simp] theorem loadAFrom_a (ea : Word) : (loadAFrom ea s).a = s.mem.read ea := rfl
@[simp] theorem loadAFrom_x (ea : Word) : (loadAFrom ea s).x = s.x := rfl
@[simp] theorem loadAFrom_y (ea : Word) : (loadAFrom ea s).y = s.y := rfl
@[simp] theorem loadAFrom_status (ea : Word) : (loadAFrom ea s).status = updateZN s.status (s.mem.read ea) := rfl
@[simp] theorem loadAFrom_pc (ea : Word) : (loadAFrom ea s).pc = s.pc := rfl
@[simp] theorem loadAFrom_mem (ea : Word) : (loadAFrom ea s).mem = s.mem := rfl
@[simp] theorem loadAFrom_runStatus (ea : Word) : (loadAFrom ea s).runStatus = s.runStatus := rfl
/-! ### Host operations -/

@[simp] theorem resetOp_a : (resetOp s).a = 0x00 := rfl
@[simp] theorem resetOp_x : (resetOp s).x = 0x00 := rfl
@[simp] theorem resetOp_y : (resetOp s).y = s.y := rfl
@[simp] theorem resetOp_status : (resetOp s).status = 0x00 := rfl
@[simp] theorem resetOp_pc : (resetOp s).pc = s.mem.read16 Config.resetVector := rfl
@[simp] theorem resetOp_mem : (resetOp s).mem = s.mem := rfl
@[simp] theorem resetOp_runStatus : (resetOp s).runStatus = s.runStatus := rfl
@[simp] theorem applySnapshot_a (snap : Snapshot) : (applySnapshot snap s).a = snap.a.getD s.a := rfl
@[simp] theorem applySnapshot_x (snap : Snapshot) : (applySnapshot snap s).x = snap.x.getD s.x := rfl
@[simp] theorem applySnapshot_y (snap : Snapshot) : (applySnapshot snap s).y = snap.y.getD s.y := rfl
@[simp] theorem applySnapshot_status (snap : Snapshot) : (applySnapshot snap s).status = snap.status.getD s.status := rfl
@[simp] theorem applySnapshot_pc (snap : Snapshot) : (applySnapshot snap s).pc = snap.pc.getD s.pc := rfl
@[simp] theorem applySnapshot_mem (snap : Snapshot) : (applySnapshot snap s).mem = writePairs s.mem snap.bytes := rfl
@[simp] theorem applySnapshot_runStatus (snap : Snapshot) : (applySnapshot snap s).runStatus = s.runStatus := rfl

end Sys2Proof.Machine
end

