-- ==== Sys2Proof/Laws/Exec.lean ====
section
/-! SUPPORT. One lemma per shared operation, meaning and step function: everything it can do. Later proofs cite
these and do not unfold. -/

namespace Sys2Proof.Machine

/-! ### Flags -/

/-- The flag update, bit by bit. -/
theorem updateZN_getLsbD (status r : Byte) (bit : Nat) :
    (updateZN status r).getLsbD bit =
      if bit = 1 then decide (r = 0x00) else if bit = 7 then r.getLsbD 7 else status.getLsbD bit := by
  by_cases hb : bit < 8
  · have h : bit = 0 ∨ bit = 1 ∨ bit = 2 ∨ bit = 3 ∨ bit = 4 ∨ bit = 5 ∨ bit = 6 ∨ bit = 7 := by omega
    unfold updateZN storageMask zeroMask negativeMask
    by_cases hr : r = 0x00
    · subst hr
      rcases h with rfl | rfl | rfl | rfl | rfl | rfl | rfl | rfl <;> simp
    · rw [if_neg hr, decide_eq_false hr]
      rcases h with rfl | rfl | rfl | rfl | rfl | rfl | rfl | rfl <;> simp
  · have h1 : bit ≠ 1 := by omega
    have h7 : bit ≠ 7 := by omega
    simp [h1, h7, BitVec.getLsbD_of_ge, Nat.le_of_not_lt hb]

/-- A bit other than 1 and 7 is kept. -/
theorem updateZN_storage (status r : Byte) {bit : Nat} (h1 : bit ≠ 1) (h7 : bit ≠ 7) :
    (updateZN status r).getLsbD bit = status.getLsbD bit := by
  simp [updateZN_getLsbD, h1, h7]

/-- The flag update in the terms of claims. -/
theorem updateZN_flagsFrom (status r : Byte) : FlagsFrom status r (updateZN status r) :=
  ⟨updateZN_getLsbD status r 1, updateZN_getLsbD status r 7, fun _ h1 h7 => updateZN_storage _ _ h1 h7⟩

/-! ### Operands -/

/-- A zero-page address as a number. -/
theorem zeroExtend16_toNat (b : Byte) : (zeroExtend16 b).toNat = b.toNat := by
  have h := b.isLt
  simp only [zeroExtend16, BitVec.toNat_setWidth]
  omega

/-- The resolver aborts only with the NonAddressing reason, and only on that mode. -/
theorem resolve_abort {mode : Mode} {s : State} {reason : AbortReason} (h : resolve mode s = .abort reason) :
    mode = .nonAddressing ∧ reason = .nonAddressingResolve := by
  cases mode <;> simp_all [resolve, fetchOperand, addressOf]

/-- Everything `withAddress` can do: abort with `pc` unmoved, or the mutation past the operand bytes. -/
theorem withAddress_cases (opcode : Byte) (o : Operand) (mutate : Word → State → State) (s : State) :
    (∃ reason, addressOf o s = .abort reason ∧
      withAddress opcode o mutate s = .next (takeAbort reason opcode (s.pc - 1) s)) ∨
    (∃ ea, addressOf o s = .address ea ∧
      withAddress opcode o mutate s = .next (mutate ea (s.advancePc (operandBytes (operandMode o))))) := by
  unfold withAddress
  cases h : addressOf o s with
  | address ea => exact .inr ⟨ea, rfl, by simp⟩
  | abort reason => exact .inl ⟨reason, rfl, by simp⟩

/-! ### Meanings -/

@[simp] theorem exec_brk_eq (s : State) : exec .brk s = .next (haltRun s) := rfl

@[simp] theorem exec_ldaImm_eq (value : Byte) (s : State) :
    exec (.ldaImm value) s = .next (loadA value (s.advancePc 1)) := rfl

@[simp] theorem exec_ldaZp_eq (zp : Byte) (s : State) :
    exec (.ldaZp zp) s = .next (loadAFrom (zeroExtend16 zp) (s.advancePc 1)) := rfl

@[simp] theorem exec_ldaAbs_eq (addr : Word) (s : State) :
    exec (.ldaAbs addr) s = .next (loadAFrom addr (s.advancePc 2)) := rfl

@[simp] theorem exec_tax_eq (s : State) : exec .tax s = .next (loadX s.a s) := rfl

@[simp] theorem exec_inx_eq (s : State) : exec .inx s = .next (loadX (s.x + 1) s) := rfl

/-! ### Steps -/

/-- Setting the status an engine already has changes nothing. -/
theorem setRunStatus_self {s : State} {r : RunStatus} (h : s.runStatus = r) : s.setRunStatus r = s := by
  cases s
  cases h
  rfl

/-- A step of an engine that can run is one instruction step with the run status Running. -/
theorem step_of_canRun {s : State} (h : s.canRun) : step s = instructionStep (s.setRunStatus .running) := by
  cases hs : s.runStatus with
  | idle => simp [step, engineStep, hs]
  | running => simp [step, engineStep, hs, setRunStatus_self hs]
  | aborted r o p => simp [State.canRun, hs] at h

/-- A step of an aborted engine is the fault that names the abort. -/
theorem step_of_aborted {s : State} {r : AbortReason} {o : Byte} {p : Word} (h : s.runStatus = .aborted r o p) :
    step s = .fault (.stoppedByAbort r o p) := by
  simp [step, engineStep, h]

/-- An instruction step on an undefined opcode. -/
theorem instructionStep_undefined {s : State} (h : decodeOpcode (s.mem.read s.pc) = none) :
    instructionStep s = .next (takeAbort .undefinedOpcode (s.mem.read s.pc) s.pc (s.advancePc 1)) := by
  simp [instructionStep, h]

/-- An instruction step on a defined opcode. -/
theorem instructionStep_defined {s : State} {k : Opcode} (h : decodeOpcode (s.mem.read s.pc) = some k) :
    instructionStep s =
      exec (instrOf k (s.mem.read (s.pc + 1)) (s.mem.read (s.pc + 2))) (s.advancePc 1) := by
  simp [instructionStep, h]

/-- Everything a meaning can do: its next state keeps Y and memory and writes no status bit but 1 and 7; only BRK
changes the run status, to Idle. -/
theorem exec_cases (i : Instr) (s : State) :
    ∃ t, exec i s = .next t ∧ t.y = s.y ∧ t.mem = s.mem ∧
      (∀ bit, bit ≠ 1 → bit ≠ 7 → t.status.getLsbD bit = s.status.getLsbD bit) ∧
      t.pc = s.pc + BitVec.ofNat 16 (operandBytes (modeOf (opcodeOf i))) ∧
      t.runStatus = (if i = .brk then .idle else s.runStatus) := by
  cases i <;>
    exact ⟨_, rfl, rfl, rfl, by intro bit h1 h7; simp [updateZN_storage _ _ h1 h7], by
      simp [opcodeOf, modeOf, operandBytes, operandMode], rfl⟩

/-- What a next state of a meaning is, for a state already at hand. -/
theorem exec_next {i : Instr} {s t : State} (h : exec i s = .next t) :
    t.y = s.y ∧ t.mem = s.mem ∧
      (∀ bit, bit ≠ 1 → bit ≠ 7 → t.status.getLsbD bit = s.status.getLsbD bit) ∧
      t.pc = s.pc + BitVec.ofNat 16 (operandBytes (modeOf (opcodeOf i))) ∧
      t.runStatus = (if i = .brk then .idle else s.runStatus) := by
  obtain ⟨t', ht, facts⟩ := exec_cases i s
  rw [ht] at h
  cases h
  exact facts

/-- A step from an undefined opcode. -/
theorem step_undefined {s : State} (h : s.canRun) (hk : decodeOpcode (s.mem.read s.pc) = none) :
    step s = .next (takeAbort .undefinedOpcode (s.mem.read s.pc) s.pc ((s.setRunStatus .running).advancePc 1)) := by
  rw [step_of_canRun h, instructionStep_undefined (s := s.setRunStatus .running) hk]
  rfl

/-- A step from a defined opcode. -/
theorem step_defined {s : State} {k : Opcode} (h : s.canRun) (hk : decodeOpcode (s.mem.read s.pc) = some k) :
    step s = exec (instrOf k (s.mem.read (s.pc + 1)) (s.mem.read (s.pc + 2)))
      ((s.setRunStatus .running).advancePc 1) := by
  rw [step_of_canRun h]
  exact instructionStep_defined (s := s.setRunStatus .running) hk

/-- Everything an instruction step can do: it always answers a next state, which is the undefined-opcode abort or
the state of the decoded instruction's meaning. -/
theorem instructionStep_cases (s : State) :
    (decodeOpcode (s.mem.read s.pc) = none ∧
      instructionStep s = .next (takeAbort .undefinedOpcode (s.mem.read s.pc) s.pc (s.advancePc 1))) ∨
    (∃ k i t, decodeOpcode (s.mem.read s.pc) = some k ∧
      i = instrOf k (s.mem.read (s.pc + 1)) (s.mem.read (s.pc + 2)) ∧
      exec i (s.advancePc 1) = .next t ∧ instructionStep s = .next t) := by
  cases h : decodeOpcode (s.mem.read s.pc) with
  | none => exact .inl ⟨rfl, instructionStep_undefined h⟩
  | some k =>
    obtain ⟨t, ht, -⟩ := exec_cases (instrOf k (s.mem.read (s.pc + 1)) (s.mem.read (s.pc + 2))) (s.advancePc 1)
    exact .inr ⟨k, _, t, rfl, rfl, ht, (instructionStep_defined h).trans ht⟩

/-- Which engines answer a next state: exactly those that can run. -/
theorem canRun_of_step_next {s t : State} (h : step s = .next t) : s.canRun := by
  cases hs : s.runStatus with
  | idle => simp [State.canRun, hs]
  | running => simp [State.canRun, hs]
  | aborted r o p => simp [step_of_aborted hs] at h

/-- Everything a step that answers a next state can do: the undefined-opcode abort, or the meaning of the decoded
instruction past the opcode byte. -/
theorem step_next_cases {s t : State} (h : step s = .next t) :
    (decodeOpcode (s.mem.read s.pc) = none ∧
      t = takeAbort .undefinedOpcode (s.mem.read s.pc) s.pc ((s.setRunStatus .running).advancePc 1)) ∨
    (∃ k, decodeOpcode (s.mem.read s.pc) = some k ∧
      exec (instrOf k (s.mem.read (s.pc + 1)) (s.mem.read (s.pc + 2))) ((s.setRunStatus .running).advancePc 1) =
        .next t) := by
  have hc := canRun_of_step_next h
  cases hk : decodeOpcode (s.mem.read s.pc) with
  | none =>
    rw [step_undefined hc hk] at h
    cases h
    exact .inl ⟨rfl, rfl⟩
  | some k => exact .inr ⟨k, rfl, (step_defined hc hk).symm.trans h⟩

/-! ### Host operations -/

/-- On an Idle engine a host operation is `hostOpIdle`. -/
theorem hostOp_of_idle {s : State} (h : s.runStatus = .idle) (op : HostOp) : hostOp op s = hostOpIdle op s := by
  simp [hostOp, h]

/-- A host operation that is done was done on an Idle engine. -/
theorem idle_of_hostOp_ok {op : HostOp} {s t : State} (h : hostOp op s = .ok t) : s.runStatus = .idle := by
  cases hs : s.runStatus with
  | idle => rfl
  | running => simp [hostOp, hs] at h
  | aborted r o p => simp [hostOp, hs] at h

/-- `load_program` on an Idle engine, by the answer of the memory's `load_program`. -/
theorem hostOp_loadProgram {s : State} (h : s.runStatus = .idle) (bytes : List Byte) (base : Word) :
    (s.mem.loadProgram bytes base = none ∧
      hostOp (.loadProgram bytes base) s = .outOfBounds base bytes.length) ∨
    (∃ m, s.mem.loadProgram bytes base = some m ∧ hostOp (.loadProgram bytes base) s = .ok (s.setMem m)) := by
  rw [hostOp_of_idle h]
  simp only [hostOpIdle, loadProgramOp]
  cases hm : s.mem.loadProgram bytes base with
  | none => exact .inl ⟨rfl, rfl⟩
  | some m => exact .inr ⟨m, rfl, rfl⟩

/-- Run on an Idle engine is the run loop with the run status Running. -/
theorem run_of_idle {s : State} (h : s.runStatus = .idle) (fuel : Nat) :
    run fuel s = runLoop fuel (s.setRunStatus .running) := by
  simp [run, h]

end Sys2Proof.Machine
end

