-- ==== Sys2Proof/Laws/PerInstr.lean ====
section
/-! SUPPORT. Facts about every instruction as syntax, one lemma per constructor. -/

namespace Sys2Proof.Laws

/-- The shape of an instruction's encoding (R60, R61): it is well-formed, it begins with the byte of its opcode, and
it has the length of its opcode. -/
def EncodingShape.Statement (i : Instr) : Prop :=
  i.wellFormed = true ∧ (encode i).head? = some (opcodeByte (opcodeOf i)) ∧
    (encode i).length = lengthOf (opcodeOf i)

theorem EncodingShape.brk : EncodingShape.Statement .brk := ⟨rfl, rfl, rfl⟩

theorem EncodingShape.ldaImm (value : Byte) : EncodingShape.Statement (.ldaImm value) := ⟨rfl, rfl, rfl⟩

theorem EncodingShape.ldaZp (zp : Byte) : EncodingShape.Statement (.ldaZp zp) := ⟨rfl, rfl, rfl⟩

theorem EncodingShape.ldaAbs (addr : Word) : EncodingShape.Statement (.ldaAbs addr) := ⟨rfl, rfl, rfl⟩

theorem EncodingShape.tax : EncodingShape.Statement .tax := ⟨rfl, rfl, rfl⟩

theorem EncodingShape.inx : EncodingShape.Statement .inx := ⟨rfl, rfl, rfl⟩

end Sys2Proof.Laws
end

