-- ==== Sys2Proof/Tests/Slice0.lean ====
section
/-! SUPPORT. Small tests, with expected results from spec/ (the vectors of spec/95_test_vectors.md and the encodings
of spec/30_encoding.md), and a witness for the hypotheses of each statement. -/

namespace Sys2Proof.Tests

open Sys2Proof.Machine

/-- The next state, if that is the outcome. -/
def nextOf : Result → Option State
  | .next s => some s
  | .fault _ => none
  | .refused _ => none

/-- A constructed engine with `pc` and memory set. -/
def engine (pc : Word) (mem : Memory) : State := { State.reset with pc := pc, mem := mem }

/-- The same, inside the run loop. -/
def runningEngine (pc : Word) (mem : Memory) : State := { engine pc mem with runStatus := .running }

/-- An engine that aborted on the byte 0xFF at 0x8000 (V-UND-1). -/
def abortedEngine : State :=
  { engine 0x8001 [(0x8000, 0xFF)] with runStatus := .aborted .undefinedOpcode 0xFF 0x8000 }

/-! ### Well-formedness: an ill-formed byte sequence for each check -/

theorem test_wf_refuses_no_bytes : wellFormedBytes [] = false := by decide
theorem test_wf_refuses_undefined_opcode : wellFormedBytes [0x02] = false := by decide
theorem test_wf_refuses_missing_operand : wellFormedBytes [0xAD, 0x34] = false := by decide
theorem test_wf_refuses_extra_byte : wellFormedBytes [0xAA, 0x00] = false := by decide
theorem test_wf_accepts_lda_abs : wellFormedBytes [0xAD, 0x34, 0x12] = true := by decide

/-! ### Decoding: words written out from R61 and R63 -/

theorem test_decode_brk : decode [0b00000000, 0x11] = .ok .brk [0x11] := by decide
theorem test_decode_lda_imm : decode [0b10101001, 0b11000000] = .ok (.ldaImm 0xC0) [] := by decide
theorem test_decode_lda_zp : decode [0b10100101, 0b00010000] = .ok (.ldaZp 0x10) [] := by decide
theorem test_decode_lda_abs : decode [0b10101101, 0b00110100, 0b00010010] = .ok (.ldaAbs 0x1234) [] := by decide
theorem test_decode_tax : decode [0b10101010] = .ok .tax [] := by decide
theorem test_decode_inx : decode [0b11101000] = .ok .inx [] := by decide
theorem test_decode_undefined : decode [0xA8, 0x00] = .undefinedOpcode 0xA8 := by decide
theorem test_decode_truncated : decode [0xAD, 0x00] = .truncated := by decide
theorem test_table_word_order : decodeTableWord 24 0x1234AD = some (.ldaAbs 0x1234) := by decide
theorem test_table_word_short : decodeTableWord 8 0xA9 = some (.ldaImm 0x00) := by decide
theorem test_table_word_undefined : decodeTableWord 8 0xFF = none := by decide

/-! ### Memory (V-MEM-4, V-MEM-5, V-MEM-11, V-MEM-13) -/

theorem test_write16_wraps : Memory.write16 [] 0xFFFF 0xABCD = [(0x0000, 0xAB), (0xFFFF, 0xCD)] := by decide
theorem test_read16_wraps : Memory.read16 [(0x0000, 0x12), (0x0100, 0x99), (0xFFFF, 0x34)] 0xFFFF = 0x1234 := by
  decide
theorem test_load_program_never_wraps : Memory.loadProgram [] [0xAA, 0xBB] 0xFFFF = none := by decide
theorem test_load_program_to_top : Memory.loadProgram [] [0xAA] 0xFFFF = some [(0xFFFF, 0xAA)] := by decide
theorem test_reset_vector_bytes : Memory.setResetVector [] 0x1234 = [(0xFFFC, 0x34), (0xFFFD, 0x12)] := by decide
theorem test_zero_byte_is_not_listed : Memory.write [(0x10, 0x55)] 0x10 0x00 = [] := by decide

/-! ### Addressing resolver (V-AM-5, V-AM-10, V-AM-11, V-AM-16, V-AM-18, V-AM-19, V-AM-22) -/

theorem test_zero_page_x_wraps :
    resolve .zeroPageX { engine 0x8001 [(0x8001, 0xFF)] with x := 0x02 } = .address 0x0001 := by decide
theorem test_absolute_at_top :
    resolve .absolute (engine 0xFFFF [(0x0000, 0x12), (0xFFFF, 0x34)]) = .address 0x1234 := by decide
theorem test_absolute_x_wraps :
    resolve .absoluteX { engine 0x8001 [(0x8001, 0xFF), (0x8002, 0xFF)] with x := 0x01 } = .address 0x0000 := by
  decide
theorem test_indexed_indirect_wraps :
    resolve .indexedIndirectX
      { engine 0x8001 [(0x00, 0x30), (0x100, 0x77), (0x8001, 0xFE)] with x := 0x01 } = .address 0x3000 := by decide
theorem test_indirect_indexed_adds_y :
    resolve .indirectIndexedY
      { engine 0x8001 [(0x86, 0x28), (0x87, 0x40), (0x8001, 0x86)] with y := 0x10 } = .address 0x4038 := by decide
theorem test_indirect_indexed_pointer_wraps :
    resolve .indirectIndexedY (engine 0x8001 [(0x00, 0x40), (0x100, 0x55), (0x8001, 0xFF)]) = .address 0x4000 := by
  decide
theorem test_non_addressing_aborts : resolve .nonAddressing State.reset = .abort .nonAddressingResolve := by decide

/-! ### Flags (V-FLAG-6, V-FLAG-8, V-FLAG-9) -/

theorem test_flags_keep_storage : updateZN 0xFF 0x01 = 0x7D := by decide
theorem test_flags_negative : updateZN 0xFF 0x80 = 0xFD := by decide
theorem test_flags_zero : updateZN 0x41 0x00 = 0x43 := by decide

/-! ### Instructions, one step each -/

/-- V-LDA-14: the operand of an opcode at 0xFFFF stands at 0x0000. -/
theorem test_lda_imm_wraps :
    nextOf (step (engine 0xFFFF [(0x0000, 0x33), (0xFFFF, 0xA9)])) =
      some { runningEngine 0x0001 [(0x0000, 0x33), (0xFFFF, 0xA9)] with a := 0x33 } := by decide

/-- V-LDA-6: X and Y stay. -/
theorem test_lda_imm_keeps_x_y :
    nextOf (step { engine 0x8000 [(0x8000, 0xA9), (0x8001, 0x05)] with a := 0x99, x := 0x12, y := 0x34 }) =
      some { runningEngine 0x8002 [(0x8000, 0xA9), (0x8001, 0x05)] with a := 0x05, x := 0x12, y := 0x34 } := by decide

/-- V-LDA-9: it may load its own operand byte. -/
theorem test_lda_zp_own_operand :
    nextOf (step (engine 0x0000 [(0x0000, 0xA5), (0x0001, 0x01)])) =
      some { runningEngine 0x0002 [(0x0000, 0xA5), (0x0001, 0x01)] with a := 0x01 } := by decide

/-- V-LDA-8: a zero byte sets Zero. -/
theorem test_lda_zp_zero :
    (nextOf (step (engine 0x8000 [(0x8000, 0xA5)]))).map (fun t => (t.a, t.status)) = some (0x00, 0x02) := by decide

/-- V-LDA-10: the low address byte comes first. -/
theorem test_lda_abs_little_endian :
    (nextOf (step (engine 0x8000 [(0x1234, 0x80), (0x8000, 0xAD), (0x8001, 0x34), (0x8002, 0x12)]))).map
      (fun t => (t.a, t.status, t.pc)) = some (0x80, 0x80, 0x8003) := by decide

/-- V-LDA-15: operand bytes at 0xFFFF and 0x0000. -/
theorem test_lda_abs_wraps :
    (nextOf (step (engine 0xFFFE [(0x0010, 0x07), (0xFFFE, 0xAD), (0xFFFF, 0x10)]))).map
      (fun t => (t.a, t.pc)) = some (0x07, 0x0001) := by decide

/-- V-TAX-3: the old X and flags do not matter. -/
theorem test_tax_clears_flags :
    (nextOf (step { engine 0x8000 [(0x8000, 0xAA)] with a := 0x01, x := 0xFF, status := 0x82 })).map
      (fun t => (t.a, t.x, t.status, t.pc)) = some (0x01, 0x01, 0x00, 0x8001) := by decide

/-- V-TAX-4: storage bits stay. -/
theorem test_tax_keeps_storage_bits :
    (nextOf (step { engine 0x8000 [(0x8000, 0xAA)] with status := 0x41 })).map
      (fun t => (t.x, t.status)) = some (0x00, 0x43) := by decide

/-- V-INX-5: the wrap writes no carry and no overflow bit. -/
theorem test_inx_wraps :
    (nextOf (step { engine 0x8000 [(0x8000, 0xE8)] with x := 0xFF, status := 0x41 })).map
      (fun t => (t.x, t.status, t.pc)) = some (0x00, 0x43, 0x8001) := by decide

/-- V-INX-2: 0x7F to 0x80 sets Negative. -/
theorem test_inx_sets_negative :
    (nextOf (step { engine 0x8000 [(0x8000, 0xE8)] with x := 0x7F })).map
      (fun t => (t.x, t.status)) = some (0x80, 0x80) := by decide

/-- V-BRK-3: nothing but `pc` and the run status changes. -/
theorem test_brk_keeps_flags :
    nextOf (step { runningEngine 0x8000 [] with a := 0x12, status := 0xFF }) =
      some { engine 0x8001 [] with a := 0x12, status := 0xFF } := by decide

/-- V-BRK-2: BRK at 0xFFFF leaves `pc = 0x0000`. -/
theorem test_brk_wraps : nextOf (step (engine 0xFFFF [])) = some (engine 0x0000 []) := by decide

/-- V-UND-1: the abort records the byte and its address; `pc` is one past it. -/
theorem test_undefined_opcode_aborts : nextOf (step (engine 0x8000 [(0x8000, 0xFF)])) = some abortedEngine := by
  decide

/-- V-UND-5: Reset of the aborted engine is refused. -/
theorem test_reset_refused_after_abort :
    hostOp .reset abortedEngine = .refused (.engineAborted .undefinedOpcode 0xFF 0x8000) := by decide

/-- V-RST-2: Reset keeps Y and reads the vector. -/
theorem test_reset_keeps_y :
    hostOp .reset { engine 0x0000 [(0xFFFC, 0x34), (0xFFFD, 0x12)] with
      a := 0x12, x := 0x34, y := 0x55, status := 0xFF } =
      .ok { engine 0x1234 [(0xFFFC, 0x34), (0xFFFD, 0x12)] with y := 0x55 } := by decide

/-- R184: the boot sequence. -/
theorem test_boot :
    boot [0xE8] = .ok (engine 0x8000 [(0x8000, 0xE8), (0xFFFD, 0x80)]) := by decide

/-- The fetch word is what the next step runs (TAX, then LDA absolute across the top of memory). -/
theorem test_fetch_word_tax :
    (nextOf (step ({ State.reset with a := 0x81 }.withFetchWord 8 0xAA))).map (fun t => (t.x, t.pc)) =
      some (0x81, 0x0001) := by decide
theorem test_fetch_word_lda_abs :
    (nextOf (step ((engine 0xFFFF []).withFetchWord 24 0xFFFFAD))).map (fun t => (t.a, t.pc)) =
      some (0xAD, 0x0002) := by decide

/-! ### Witnesses: a state and operands that meet the hypotheses of each statement together, and one for each clause -/

theorem witness_WriteChangesOneByte : Memory.wf [(0x0010, 0x55), (0xFFFF, 0x01)] = true ∧ (0x0010 : Word) ≠ 0xFFFF := by
  decide

theorem witness_Write16RoundTrip :
    Memory.wf [(0x0000, 0x55)] = true ∧ (0x0001 : Word) ≠ 0xFFFF ∧ (0x0001 : Word) ≠ 0xFFFF + 1 := by decide

theorem witness_SetResetVectorWrites :
    State.reset.mem.wf = true ∧ State.reset.runStatus = .idle ∧ (0xFFFE : Word) ≠ 0xFFFC ∧ (0xFFFE : Word) ≠ 0xFFFD := by
  decide

/-- The last byte that fits stands at 0xFFFF, with an address below the program. -/
theorem witness_LoadProgramCopies :
    Memory.wf [] = true ∧ (0xFFFE : Word).toNat + [0x01, 0x02].length ≤ 0x10000 ∧ 1 < [0x01, 0x02].length ∧
      (0xFFFD : Word).toNat < (0xFFFE : Word).toNat := by decide

/-- An address just past the program. -/
theorem witness_LoadProgramCopies_above :
    (0x8000 : Word).toNat + [0x01].length ≤ (0x8001 : Word).toNat ∧ (0x8000 : Word).toNat + [0x01].length ≤ 0x10000 := by
  decide

theorem witness_TooLongProgramIsOutOfBounds :
    State.reset.runStatus = .idle ∧ (0xFFFF : Word).toNat + [0xAA, 0xBB].length > 0x10000 := by decide

theorem witness_TooLongProgramIsOutOfBounds_load :
    State.reset.runStatus = .idle ∧ (List.replicate 0x8001 (0x11 : Byte)).length > 0x8000 :=
  ⟨rfl, by rw [List.length_replicate]; decide⟩

theorem witness_CanonicalMemoryIsUnique :
    Memory.wf [(0x10, 0x55)] = true ∧ ∀ a : Word, Memory.read [(0x10, 0x55)] a = Memory.read [(0x10, 0x55)] a :=
  ⟨by decide, fun _ => rfl⟩

/-- Pointer bytes at 0xFF and 0x00: the wrap within the zero page, base 0xFE, X = 1. -/
theorem witness_ResolveIndirectModes_x :
    let s := { engine 0x8001 [(0x8001, 0xFE)] with x := 0x01 }
    (0x00FF : Word).toNat = ((s.mem.read s.pc).toNat + s.x.toNat) % 256 ∧
    (0x0000 : Word).toNat = ((s.mem.read s.pc).toNat + s.x.toNat + 1) % 256 := by decide

/-- The same for Y: base 0xFF. -/
theorem witness_ResolveIndirectModes_y :
    let s := engine 0x8001 [(0x8001, 0xFF)]
    (0x00FF : Word).toNat = (s.mem.read s.pc).toNat ∧ (0x0000 : Word).toNat = ((s.mem.read s.pc).toNat + 1) % 256 := by
  decide

theorem witness_ResolveNonAddressingAborts : ∃ reason, resolve .nonAddressing State.reset = .abort reason :=
  ⟨_, rfl⟩

theorem witness_LdaImmediateLoadsOperand :
    let s := runningEngine 0xFFFF [(0xFFFF, 0xA9)]
    s.runStatus = .running ∧ s.mem.read s.pc = 0xA9 := by decide

theorem witness_LdaZeroPageLoadsByte :
    let s := runningEngine 0x8000 [(0x8000, 0xA5)]
    s.runStatus = .running ∧ s.mem.read s.pc = 0xA5 := by decide

theorem witness_LdaAbsoluteLoadsByte :
    let s := runningEngine 0xFFFE [(0x0000, 0x12), (0xFFFE, 0xAD), (0xFFFF, 0x34)]
    s.runStatus = .running ∧ s.mem.read s.pc = 0xAD ∧
    (0x1234 : Word).toNat = (s.mem.read (s.pc + 2)).toNat * 256 + (s.mem.read (s.pc + 1)).toNat := by decide

theorem witness_LdaReadsAtResolvedAddress :
    let s := runningEngine 0x8000 [(0x8000, 0xA5)]
    s.runStatus = .running ∧ decodeOpcode (s.mem.read s.pc) = some .ldaZp ∧ mnemonicOf .ldaZp = .lda := by decide

theorem witness_TaxCopiesAccumulator :
    let s := runningEngine 0x8000 [(0x8000, 0xAA)]
    s.runStatus = .running ∧ s.mem.read s.pc = 0xAA := by decide

theorem witness_InxIncrementsWithWrap :
    let s := runningEngine 0x8000 [(0x8000, 0xE8)]
    s.runStatus = .running ∧ s.mem.read s.pc = 0xE8 := by decide

theorem witness_BrkHalts :
    let s := runningEngine 0xFFFF []
    s.runStatus = .running ∧ s.mem.read s.pc = 0x00 := by decide

theorem witness_BrkHalts_run : State.reset.runStatus = .idle ∧ State.reset.mem.read State.reset.pc = 0x00 := by decide

theorem witness_LoadFrame :
    opcodeOf (.ldaAbs 0x1234) = .ldaAbs ∧ ∃ t, exec (.ldaAbs 0x1234) State.reset = .next t := ⟨rfl, _, rfl⟩

theorem witness_IndexRegisterFrame :
    (∃ t, exec .tax State.reset = .next t) ∧ ∃ t, exec .inx State.reset = .next t := ⟨⟨_, rfl⟩, _, rfl⟩

theorem witness_HaltFrame : ∃ t, exec .brk State.reset = .next t := ⟨_, rfl⟩

theorem witness_StepRunsDecodedInstruction :
    (engine 0xFFFE [(0x0000, 0x12), (0xFFFE, 0xAD), (0xFFFF, 0x34)]).canRun ∧
    decode (fetchWindow [(0x0000, 0x12), (0xFFFE, 0xAD), (0xFFFF, 0x34)] 0xFFFE) = .ok (.ldaAbs 0x1234) [] :=
  ⟨trivial, by decide⟩

theorem witness_StepFollowsTheRunLoopRule : (runningEngine 0x8000 []).runStatus = .running := rfl

theorem witness_IdleStepBeginsRun : State.reset.runStatus = .idle := rfl

theorem witness_UndefinedOpcodeAborts :
    let s := engine 0x8000 [(0x8000, 0x01)]
    s.canRun ∧ s.runStatus = .idle ∧
      s.mem.read s.pc ∉ ([0x00, 0xA5, 0xA9, 0xAA, 0xAD, 0xE8] : List Byte) := ⟨trivial, rfl, by decide⟩

theorem witness_AbortChangesOnlyPc :
    (engine 0xFFFF [(0xFFFF, 0xE9)]).canRun ∧ decodeOpcode 0xE9 = none := ⟨trivial, by decide⟩

theorem witness_PcAdvancesByLength :
    (∃ t, step (engine 0xFFFF [(0xFFFF, 0xAD)]) = .next t) ∧
    decodeOpcode ((engine 0xFFFF [(0xFFFF, 0xAD)]).mem.read 0xFFFF) = some .ldaAbs := ⟨⟨_, rfl⟩, by decide⟩

theorem witness_StepAnswersUnlessAborted :
    abortedEngine.runStatus = .aborted .undefinedOpcode 0xFF 0x8000 ∧ State.reset.canRun := ⟨rfl, trivial⟩

theorem witness_StepIgnoresY : ∃ t, step (engine 0x8000 [(0x8000, 0xAA)]) = .next t := ⟨_, rfl⟩

/-- A flag-updating opcode, a BRK and an undefined byte: one for each clause. -/
theorem witness_StepIgnoresStatus :
    (∃ t, step (engine 0x8000 [(0x8000, 0xE8)]) = .next t) ∧ decodeOpcode 0xE8 = some .inx ∧ mnemonicOf .inx ≠ .brk ∧
    (∃ t, step (engine 0x8000 []) = .next t) ∧ decodeOpcode 0x00 = some .brk ∧
    (∃ t, step (engine 0x8000 [(0x8000, 0xFF)]) = .next t) ∧ decodeOpcode 0xFF = none :=
  ⟨⟨_, rfl⟩, by decide, by decide, ⟨_, rfl⟩, by decide, ⟨_, rfl⟩, by decide⟩

/-- A step that completes and one that aborts. -/
theorem witness_StepKeepsMemoryYAndStorageBits :
    (∃ t, step (engine 0x8000 [(0x8000, 0xE8)]) = .next t) ∧ ∃ t, step (engine 0x8000 [(0x8000, 0xFF)]) = .next t :=
  ⟨⟨_, rfl⟩, _, rfl⟩

/-- The invariant holds before a step and of an aborted engine too. -/
theorem witness_StepKeepsInv :
    (engine 0x8000 [(0x8000, 0xFF)]).Inv ∧ (∃ t, step (engine 0x8000 [(0x8000, 0xFF)]) = .next t) ∧ abortedEngine.Inv :=
  ⟨⟨by decide, trivial⟩, ⟨_, rfl⟩, ⟨by decide, by decide, by decide, by decide⟩⟩

theorem witness_HostOpsKeepInv :
    (engine 0x8000 [(0x10, 0x55)]).Inv ∧ ∃ t, hostOp (.write 0x10 0x00) (engine 0x8000 [(0x10, 0x55)]) = .ok t :=
  ⟨⟨by decide, trivial⟩, _, rfl⟩

theorem witness_RunKeepsMemoryAndY :
    run 2 (engine 0x8000 [(0x8000, 0xE8)]) =
      .halted { engine 0x8002 [(0x8000, 0xE8)] with x := 0x01 } := by decide

theorem witness_RunEndsAtBrkOrUndefinedByte :
    run 1 (engine 0x8000 [(0x8000, 0xFF)]) = .aborted .undefinedOpcode 0xFF 0x8000 abortedEngine := by decide

theorem witness_RunOutcomeIsStable :
    (∃ t, run 1 State.reset = .halted t) ∧
    ∃ t, run 1 (engine 0x8000 [(0x8000, 0xFF)]) = .aborted .undefinedOpcode 0xFF 0x8000 t := ⟨⟨_, rfl⟩, _, rfl⟩

/-- Cells with rising numbers from `low` on, all holding 0xE8. -/
def inxCells (low count : Nat) : Memory := (List.range' low count).map fun n => (n, 0xE8)

theorem lookup_inxCells {low count n : Nat} (h : low ≤ n ∧ n < low + count) : (inxCells low count).lookup n = 0xE8 := by
  induction count generalizing low with
  | zero => omega
  | succ count ih =>
    by_cases hn : low = n
    · simp [inxCells, List.range'_succ, Memory.lookup, hn]
    · have := ih (low := low + 1) (by omega)
      simpa [inxCells, List.range'_succ, Memory.lookup, hn] using this

/-- All 65536 bytes equal to 0xE8, the example of R106. -/
theorem witness_RunWithoutBrkNeverEnds :
    (engine 0x8000 (inxCells 0 0x10000)).runStatus = .idle ∧
    ∀ addr : Word, (inxCells 0 0x10000).read addr ≠ 0x00 ∧ decodeOpcode ((inxCells 0 0x10000).read addr) ≠ none := by
  refine ⟨rfl, fun addr => ?_⟩
  rw [Memory.read, lookup_inxCells ⟨Nat.zero_le _, by rw [Nat.zero_add]; exact addr.isLt⟩]
  decide

theorem witness_RunIsIteratedStep : ∃ t, run 1 State.reset = .halted t := ⟨_, rfl⟩

theorem witness_ResetKeepsYAndMemory :
    State.reset.runStatus = .idle ∧ abortedEngine.runStatus = .aborted .undefinedOpcode 0xFF 0x8000 := ⟨rfl, rfl⟩

/-- A program that fills memory to the top, with an index before, between and after the vector's bytes. -/
theorem witness_LoadPlacesProgramAndVector :
    State.reset.mem.wf = true ∧ State.reset.runStatus = .idle ∧
    (List.replicate 0x8000 (0xE8 : Byte)).length ≤ 0x8000 ∧ 0x7FFF < (List.replicate 0x8000 (0xE8 : Byte)).length ∧
    (0x7FFF ≠ 0x7FFC ∧ 0x7FFF ≠ 0x7FFD) :=
  ⟨by decide, rfl, by rw [List.length_replicate], by rw [List.length_replicate]; decide, by decide⟩

/-- An empty program: every address but the vector's is outside it. -/
theorem witness_BootState :
    ([] : List Byte).length ≤ 0x8000 ∧ (0x8000 : Word) ≠ 0xFFFC ∧ (0x8000 : Word) ≠ 0xFFFD ∧
      0x8000 + ([] : List Byte).length ≤ (0x8000 : Word).toNat := by decide

/-- A program whose last byte lands at 0xFFFF. -/
theorem witness_HostMemoryOpsWriteOnlyMemory :
    State.reset.runStatus = .idle ∧ (0xFFFE : Word).toNat + [0x01, 0x02].length ≤ 0x10000 := by decide

theorem witness_SnapshotSetsExactly :
    let snap : Snapshot := ⟨none, some 0xFF, none, some 0x7D, none, [(0x0010, 0x55), (0x1234, 0x80)]⟩
    State.reset.mem.wf = true ∧ State.reset.runStatus = .idle ∧ (snap.bytes.map Prod.fst).Nodup ∧
      snap.x = some 0xFF ∧ snap.a = none ∧ (0x0010, 0x55) ∈ snap.bytes ∧ 0x0011 ∉ snap.bytes.map Prod.fst := by decide

/-- Every register chosen, and none. -/
theorem witness_SnapshotSetsExactly_each :
    let every : Snapshot := ⟨some 0xFF, some 0x00, some 0x80, some 0xFF, some 0xFFFF, []⟩
    let noRegister : Snapshot := ⟨none, none, none, none, none, []⟩
    (every.bytes.map Prod.fst).Nodup ∧ every.a = some 0xFF ∧ every.x = some 0x00 ∧ every.y = some 0x80 ∧
      every.status = some 0xFF ∧ every.pc = some 0xFFFF ∧ noRegister.a = none ∧ noRegister.x = none ∧ noRegister.y = none ∧
      noRegister.status = none ∧ noRegister.pc = none := by decide

theorem witness_HostRefusedUnlessIdle :
    abortedEngine.runStatus = .aborted .undefinedOpcode 0xFF 0x8000 ∧ (runningEngine 0x8000 []).runStatus = .running :=
  ⟨rfl, rfl⟩

theorem witness_ReadOutAfterHalt : ∃ t, run 1 State.reset = .halted t := ⟨_, rfl⟩

theorem witness_DecodeAgreesWithEncode : decode [0xAD, 0x34, 0x12, 0x77] = .ok (.ldaAbs 0x1234) [0x77] := by decide

end Sys2Proof.Tests
end

section
/-! PROOF. The state (spec/10_state.md): what a step keeps, what it does not read, and the invariant at reset. -/

namespace Sys2Proof.Machine

/-! ### Frames of the meanings (R21) -/

/-- A meaning writes X only as TAX or INX. -/
theorem exec_keeps_x {i : Instr} {s t : State} (htax : i ≠ .tax) (hinx : i ≠ .inx) (h : exec i s = .next t) :
    t.x = s.x := by
  cases i with
  | tax => exact absurd rfl htax
  | inx => exact absurd rfl hinx
  | brk | ldaImm | ldaZp | ldaAbs => cases h; rfl

/-- A meaning writes A only as an LDA form. -/
theorem exec_keeps_a {i : Instr} {s t : State} (hlda : mnemonicOf (opcodeOf i) ≠ .lda) (h : exec i s = .next t) :
    t.a = s.a := by
  cases i with
  | ldaImm | ldaZp | ldaAbs => exact absurd rfl hlda
  | brk | tax | inx => cases h; rfl

/-- Settles O54: the abort writes none of these, and `exec_next` is the frame of every meaning. -/
theorem stepKeepsMemoryYAndStorageBits : Obligations.StepKeepsMemoryYAndStorageBits := by
  intro s t h
  rcases step_next_cases h with ⟨-, rfl⟩ | ⟨k, -, hexec⟩
  · simp
  · obtain ⟨hy, hmem, hbits, -, -⟩ := exec_next hexec
    exact ⟨hy, hmem, fun addr => congrArg (·.read addr) hmem, hbits⟩

/-- Settles O25: the frame of every meaning, and an LDA form is none of the instructions that write X or the run
status. -/
theorem loadFrame : Obligations.LoadFrame := by
  intro i s t hi h
  have hbrk : i ≠ .brk := by rintro rfl; simp [opcodeOf] at hi
  have htax : i ≠ .tax := by rintro rfl; simp [opcodeOf] at hi
  have hinx : i ≠ .inx := by rintro rfl; simp [opcodeOf] at hi
  obtain ⟨hy, hmem, hbits, -, hrun⟩ := exec_next h
  exact ⟨exec_keeps_x htax hinx h, hy, hrun.trans (if_neg hbrk), hbits, fun addr => congrArg (·.read addr) hmem⟩

/-- Settles O26: the frame of every meaning; TAX and INX have no operand bytes and do not load A. -/
theorem indexRegisterFrame : Obligations.IndexRegisterFrame := by
  intro i s t hi h
  have hbrk : i ≠ .brk := by rintro rfl; simp at hi
  have hlda : mnemonicOf (opcodeOf i) ≠ .lda := by rcases hi with rfl | rfl <;> decide
  have hlen : operandBytes (modeOf (opcodeOf i)) = 0 := by rcases hi with rfl | rfl <;> rfl
  obtain ⟨hy, hmem, hbits, hpc, hrun⟩ := exec_next h
  exact ⟨exec_keeps_a hlda h, hy, by simpa [hlen] using hpc, hrun.trans (if_neg hbrk), hbits,
    fun addr => congrArg (·.read addr) hmem⟩

/-! ### No instruction reads Y (R21) -/

/-- A meaning carries Y through unread. -/
theorem exec_with_y {i : Instr} {s t : State} (h : exec i s = .next t) (v : Byte) :
    exec i { s with y := v } = .next { t with y := v } := by
  cases i <;> cases h <;> rfl

/-- Settles O35: Y takes no part in the fetch, the abort carries it through, and so does every meaning. -/
theorem stepIgnoresY : Obligations.StepIgnoresY := by
  intro s t v h
  have hrun : State.canRun { s with y := v } := canRun_of_step_next (s := s) h
  rcases step_next_cases h with ⟨hk, rfl⟩ | ⟨k, hk, hexec⟩
  · exact step_undefined hrun hk
  · exact (step_defined hrun hk).trans (exec_with_y hexec v)

/-! ### No instruction reads the flags (R28) -/

/-- The new Zero and Negative do not depend on the old status (R109). -/
theorem updateZN_flags_eq (status status' r : Byte) :
    (updateZN status r).getLsbD 1 = (updateZN status' r).getLsbD 1 ∧
      (updateZN status r).getLsbD 7 = (updateZN status' r).getLsbD 7 := by
  obtain ⟨hzero, hnegative, -⟩ := updateZN_flagsFrom status r
  obtain ⟨hzero', hnegative', -⟩ := updateZN_flagsFrom status' r
  exact ⟨hzero.trans hzero'.symm, hnegative.trans hnegative'.symm⟩

/-- What becomes of another status: BRK carries it through, every other meaning updates Zero and Negative in it from
the same result `r` as in the unchanged run. -/
theorem exec_with_status {i : Instr} {s t : State} (h : exec i s = .next t) (v : Byte) :
    (i = .brk ∧ exec i { s with status := v } = .next { t with status := v }) ∨
    (i ≠ .brk ∧ ∃ r, t.status = updateZN s.status r ∧
      exec i { s with status := v } = .next { t with status := updateZN v r }) := by
  cases i with
  | brk => cases h; exact .inl ⟨rfl, rfl⟩
  | ldaImm | ldaZp | ldaAbs | tax | inx => cases h; exact .inr ⟨nofun, _, rfl, rfl⟩

/-- Only the opcode of BRK makes a BRK. -/
theorem instrOf_eq_brk_iff {k : Opcode} {b1 b2 : Byte} : instrOf k b1 b2 = .brk ↔ k = .brk := by
  cases k <;> simp [instrOf]

/-- Settles O36: the fetch reads no flag; the abort and BRK carry the status through, and every other meaning sets
Zero and Negative from its result alone. -/
theorem stepIgnoresStatus : Obligations.StepIgnoresStatus := by
  intro s t v h
  have hrun : State.canRun { s with status := v } := canRun_of_step_next (s := s) h
  rcases step_next_cases h with ⟨hk, rfl⟩ | ⟨k, hk, hexec⟩
  · exact ⟨v, step_undefined hrun hk, fun _ _ _ => rfl, fun k hk' => by simp [hk] at hk', fun _ => rfl⟩
  · have hstep := step_defined hrun hk
    rcases exec_with_status hexec v with ⟨hi, hexec'⟩ | ⟨hi, r, hr, hexec'⟩
    · obtain rfl := instrOf_eq_brk_iff.mp hi
      refine ⟨v, hstep.trans hexec', fun _ _ _ => rfl, fun k' hk' hne => ?_, fun _ => rfl⟩
      obtain rfl : Opcode.brk = k' := Option.some.inj (hk.symm.trans hk')
      exact absurd rfl hne
    · have hne : k ≠ .brk := fun hkb => hi (instrOf_eq_brk_iff.mpr hkb)
      refine ⟨updateZN v r, hstep.trans hexec', fun _ h1 h7 => updateZN_storage v r h1 h7,
        fun _ _ _ => ?_, fun hb => ?_⟩
      · exact hr ▸ updateZN_flags_eq v _ r
      · simp [hk, hne] at hb

/-! ### The invariant at reset (R37) -/

/-- Settles O38: the empty memory is canonical, and an Idle engine records no abort. -/
theorem resetMeetsInv : Obligations.ResetMeetsInv where
  memWf := rfl
  recordFits := trivial

end Sys2Proof.Machine
end

section
/-! PROOF. The memory subsystem (spec/20_memory.md): what the writes of the host change and leave, that the canonical
form is one, and that no instruction faults on a memory access or writes memory. -/

namespace Sys2Proof.Machine

/-! ### Reads after writes (R43-R45) -/

/-- A write is read back. -/
theorem read_write_same {m : Memory} (hm : m.wf = true) (addr : Word) (v : Byte) :
    (m.write addr v).read addr = v := by
  rw [read_write_eq hm, if_pos rfl]

/-- A write leaves every other byte. -/
theorem read_write_other {m : Memory} (hm : m.wf = true) {addr b : Word} (hb : b ≠ addr) (v : Byte) :
    (m.write addr v).read b = m.read b := by
  rw [read_write_eq hm, if_neg hb]

/-- Settles O5: the two cases of a read after a write. -/
theorem writeChangesOneByte : Obligations.WriteChangesOneByte :=
  fun _ addr v hm => ⟨read_write_same hm addr v, fun _ hb => read_write_other hm hb v⟩

/-- Settles O6: the value of `hi : lo`, and 0xFFFF `+16` 1 is 0x0000. -/
theorem read16LittleEndian : Obligations.Read16LittleEndian :=
  fun m => ⟨fun addr => wordOf_toNat (m.read (addr + 1)) (m.read addr),
    wordOf_toNat (m.read (0xFFFF + 1)) (m.read 0xFFFF)⟩

/-- The two addresses of a 16-bit access differ, at 0xFFFF too. -/
theorem addr_ne_add_one (addr : Word) : addr ≠ addr + 1 := by bv_omega

/-- `write16` puts the low byte at its address: the write of the high byte is to another one. -/
theorem read_write16_low {m : Memory} (hm : m.wf = true) (addr v : Word) :
    (m.write16 addr v).read addr = lowByte v := by
  rw [Memory.write16, read_write_other (write_wf hm _ _) (addr_ne_add_one addr), read_write_same hm]

/-- `write16` puts the high byte at the next address. -/
theorem read_write16_high {m : Memory} (hm : m.wf = true) (addr v : Word) :
    (m.write16 addr v).read (addr + 1) = highByte v :=
  read_write_same (write_wf hm _ _) _ _

/-- `write16` leaves every byte but its two. -/
theorem read_write16_other {m : Memory} (hm : m.wf = true) {addr b : Word} (hlow : b ≠ addr) (hhigh : b ≠ addr + 1)
    (v : Word) : (m.write16 addr v).read b = m.read b := by
  rw [Memory.write16, read_write_other (write_wf hm _ _) hhigh, read_write_other hm hlow]

/-- `read16` gives back what `write16` wrote. -/
theorem read16_write16 {m : Memory} (hm : m.wf = true) (addr v : Word) : (m.write16 addr v).read16 addr = v := by
  rw [Memory.read16, read_write16_low hm, read_write16_high hm, wordOf_high_low]

/-- Settles O7: the three cases of a read after `write16`, and the two bytes put together again. -/
theorem write16RoundTrip : Obligations.Write16RoundTrip := by
  intro m addr v hm
  refine ⟨?_, ?_, fun b hlow hhigh => read_write16_other hm hlow hhigh v, read16_write16 hm addr v⟩
  · rw [read_write16_low hm, lowByte_toNat]
  · rw [read_write16_high hm, highByte_toNat]

/-- Settles O8: on an Idle engine it is `write16` at 0xFFFC, and only memory is replaced. -/
theorem setResetVectorWrites : Obligations.SetResetVectorWrites := by
  intro s addr hm hidle
  obtain ⟨hlow, hhigh, hother, -⟩ := write16RoundTrip s.mem Config.resetVector addr hm
  exact ⟨s.setMem (s.mem.setResetVector addr), hostOp_of_idle hidle _, hlow, hhigh, hother,
    rfl, rfl, rfl, rfl, rfl, hidle⟩

/-! ### `load_program` (R46) -/

/-- `load_program` of bytes that end at or below 0x10000 copies them. -/
theorem loadProgram_of_fits (m : Memory) {bytes : List Byte} {base : Word}
    (h : base.toNat + bytes.length ≤ Config.memorySize) :
    m.loadProgram bytes base = some (m.writeBytes base.toNat bytes) :=
  if_neg (Nat.not_lt.mpr h)

/-- `load_program` of bytes that go past 0x10000 is OutOfBounds. -/
theorem loadProgram_of_too_long (m : Memory) {bytes : List Byte} {base : Word}
    (h : base.toNat + bytes.length > Config.memorySize) : m.loadProgram bytes base = none :=
  if_pos h

/-- The address of a byte of a program that fits does not wrap. -/
theorem programAddress_toNat {base : Word} {n i : Nat} (hfit : base.toNat + n ≤ 0x10000) (hi : i < n) :
    (base + BitVec.ofNat 16 i).toNat = base.toNat + i := by
  rw [BitVec.toNat_add, BitVec.toNat_ofNat]
  omega

/-- Settles O9: a read after the copy, at an address inside and at one outside the program. -/
theorem loadProgramCopies : Obligations.LoadProgramCopies := by
  intro m bytes base hm hfit
  have hload := loadProgram_of_fits m hfit
  refine ⟨_, hload, loadProgram_wf hm hload, fun i hi => ?_, fun b hb => ?_⟩
  · have haddr := programAddress_toNat hfit hi
    rw [read_writeBytes hm hfit, dif_pos (by omega)]
    simp [haddr]
  · rw [read_writeBytes hm hfit, dif_neg (by omega)]

/-- The host's `load_program` of bytes that do not fit is OutOfBounds, on an Idle engine. -/
theorem hostOp_loadProgram_too_long {s : State} (hidle : s.runStatus = .idle) {bytes : List Byte} {base : Word}
    (h : base.toNat + bytes.length > Config.memorySize) :
    hostOp (.loadProgram bytes base) s = .outOfBounds base bytes.length := by
  rw [hostOp_of_idle hidle, hostOpIdle, loadProgramOp, loadProgram_of_too_long s.mem h]

/-- Load of a program that does not fit at the load base is OutOfBounds, on an Idle engine. -/
theorem hostOp_load_too_long {s : State} (hidle : s.runStatus = .idle) {program : List Byte}
    (h : Config.loadBase.toNat + program.length > Config.memorySize) :
    hostOp (.load program) s = .outOfBounds Config.loadBase program.length := by
  rw [hostOp_of_idle hidle, hostOpIdle, loadOp, loadProgram_of_too_long s.mem h]

/-- Settles O10: OutOfBounds leaves the state as it was, and 0x8000 bytes are left from the load base on. -/
theorem tooLongProgramIsOutOfBounds : Obligations.TooLongProgramIsOutOfBounds := by
  intro s bytes base hidle
  refine ⟨fun hlong => ?_, fun hlong => ?_⟩
  · have hop := hostOp_loadProgram_too_long hidle hlong
    exact ⟨hop, congrArg (stateAfter s) hop⟩
  · have hop := hostOp_load_too_long hidle (Nat.add_lt_add_left hlong 0x8000)
    exact ⟨hop, congrArg (stateAfter s) hop⟩

/-! ### The canonical form is one (R32, R41) -/

/-- The byte of the first cell is read at its number. -/
theorem lookup_head (k : Nat) (v : Byte) (rest : Memory) : Memory.lookup ((k, v) :: rest) k = v :=
  if_pos rfl

/-- At any other number a memory reads as its rest. -/
theorem lookup_of_head_ne {k n : Nat} (h : k ≠ n) (v : Byte) (rest : Memory) :
    Memory.lookup ((k, v) :: rest) n = rest.lookup n :=
  if_neg h

/-- A canonical memory lists nothing before its first cell. -/
theorem head_le_of_lookup_ne {low k n : Nat} {v : Byte} {rest : Memory}
    (hm : Memory.wfFrom low ((k, v) :: rest) = true)
    (hn : Memory.lookup ((k, v) :: rest) n ≠ Config.unlistedByte) : k ≤ n := by
  obtain ⟨-, hk, hv, hr⟩ := wfFrom_cons.mp hm
  by_contra hlt
  exact hn (lookup_below (wfFrom_cons.mpr ⟨Nat.le_refl k, hk, hv, hr⟩) (Nat.lt_of_not_le hlt))

/-- What follows a shared first cell reads alike: past its number because the whole memories do, and up to it because
nothing is listed there. -/
theorem lookup_rest_eq {k n : Nat} {v v' : Byte} {rest rest' : Memory} (hr : Memory.wfFrom (k + 1) rest = true)
    (hr' : Memory.wfFrom (k + 1) rest' = true)
    (h : Memory.lookup ((k, v) :: rest) n = Memory.lookup ((k, v') :: rest') n) :
    rest.lookup n = rest'.lookup n := by
  by_cases hn : n < k + 1
  · rw [lookup_below hr hn, lookup_below hr' hn]
  · have hne : k ≠ n := by omega
    rw [← lookup_of_head_ne hne v rest, ← lookup_of_head_ne hne v' rest', h]

/-- Canonical memories that read alike at every cell number are equal. The first cell of each stands at the least
number that does not read as unlisted, so the two agree on it, and so do their rests. -/
theorem eq_of_lookup_eq {m m' : Memory} {low : Nat} (hm : Memory.wfFrom low m = true)
    (hm' : Memory.wfFrom low m' = true) (h : ∀ n < Config.memorySize, m.lookup n = m'.lookup n) : m = m' := by
  induction m generalizing low m' with
  | nil =>
    cases m' with
    | nil => rfl
    | cons c' rest' =>
      obtain ⟨-, hk', hv', -⟩ := wfFrom_cons.mp hm'
      exact absurd ((h c'.1 hk').trans (lookup_head _ _ _)).symm hv'
  | cons c rest ih =>
    obtain ⟨k, v⟩ := c
    obtain ⟨-, hk, hv, hr⟩ := wfFrom_cons.mp hm
    have hhead : Memory.lookup ((k, v) :: rest) k = v := lookup_head k v rest
    cases m' with
    | nil => exact absurd (hhead.symm.trans (h k hk)) hv
    | cons c' rest' =>
      obtain ⟨k', v'⟩ := c'
      obtain ⟨-, hk', hv', hr'⟩ := wfFrom_cons.mp hm'
      have hhead' : Memory.lookup ((k', v') :: rest') k' = v' := lookup_head k' v' rest'
      have hkk : k = k' := Nat.le_antisymm
        (head_le_of_lookup_ne hm (by rwa [h k' hk', hhead']))
        (head_le_of_lookup_ne hm' (by rwa [← h k hk, hhead]))
      subst hkk
      have hvv : v = v' := hhead.symm.trans ((h k hk).trans hhead')
      rw [hvv, ih hr hr' fun n hn => lookup_rest_eq hr hr' (h n hn)]

/-- Settles O11: every cell number below 0x10000 is an address. -/
theorem canonicalMemoryIsUnique : Obligations.CanonicalMemoryIsUnique := by
  intro m m' hm hm' h
  refine eq_of_lookup_eq hm hm' fun n hn => ?_
  have haddr : (BitVec.ofNat 16 n).toNat = n := Nat.mod_eq_of_lt hn
  simpa only [Memory.read, haddr] using h (BitVec.ofNat 16 n)

/-! ### No memory access faults (R41) -/

/-- Settles O24: every meaning answers a next state past the operand bytes of its mode, and these are all the bytes of
its encoding but the opcode. -/
theorem everyInstructionCompletes : Obligations.EveryInstructionCompletes := by
  intro i s
  obtain ⟨t, hexec, -, -, -, hpc, -⟩ := exec_cases i s
  have hlen : (encode i).length - 1 = operandBytes (modeOf (opcodeOf i)) := operandBytesOf_length i
  exact ⟨t, hexec, hlen ▸ hpc⟩

/-! ### No run writes memory (R51) -/

/-- What a run loop that halts does first: its step ends the run, or leaves the engine running and the rest halts. -/
theorem runLoop_halted_cases {fuel : Nat} {s t : State} (h : runLoop (fuel + 1) s = .halted t) :
    ∃ u, step s = .next u ∧
      ((u.runStatus = .idle ∧ u = t) ∨ (u.runStatus = .running ∧ runLoop fuel u = .halted t)) := by
  simp only [runLoop] at h
  split at h
  next u hu =>
    refine ⟨u, hu, ?_⟩
    split at h
    next hidle => exact .inl ⟨hidle, RunOutcome.halted.inj h⟩
    next hrunning => exact .inr ⟨hrunning, h⟩
    next => cases h
  next => cases h
  next => cases h

/-- A run loop that halts ends Idle, with whatever holds at its start and is kept by every step. -/
theorem runLoop_halted_induction {P : State → Prop} (hstep : ∀ u v, P u → step u = .next v → P v) {fuel : Nat}
    {s t : State} (hs : P s) (h : runLoop fuel s = .halted t) : t.runStatus = .idle ∧ P t := by
  induction fuel generalizing s with
  | zero => cases h
  | succ fuel ih =>
    obtain ⟨u, hu, ⟨hidle, rfl⟩ | ⟨-, hloop⟩⟩ := runLoop_halted_cases h
    · exact ⟨hidle, hstep s u hs hu⟩
    · exact ih (hstep s u hs hu) hloop

/-- A Run that halts was invoked on an Idle engine, and its run loop halts. -/
theorem runLoop_of_run_halted {fuel : Nat} {s t : State} (h : run fuel s = .halted t) :
    s.runStatus = .idle ∧ runLoop fuel (s.setRunStatus .running) = .halted t := by
  cases hs : s.runStatus with
  | idle => exact ⟨rfl, (run_of_idle hs fuel).symm.trans h⟩
  | running => simp [run, hs] at h
  | aborted r o p => simp [run, hs] at h

/-- What no instruction writes is in `t` as it is in `s`: Y, the memory and the six storage bits of status. -/
structure SameStorage (s t : State) : Prop where
  y : t.y = s.y
  mem : t.mem = s.mem
  bits : ∀ bit, bit ≠ 1 → bit ≠ 7 → t.status.getLsbD bit = s.status.getLsbD bit

/-- A step more keeps it, however the step ends. -/
theorem SameStorage.trans_step {s u v : State} (h : SameStorage s u) (hstep : step u = .next v) : SameStorage s v := by
  obtain ⟨hy, hmem, -, hbits⟩ := stepKeepsMemoryYAndStorageBits u v hstep
  exact ⟨hy.trans h.y, hmem.trans h.mem, fun bit h1 h7 => (hbits bit h1 h7).trans (h.bits bit h1 h7)⟩

/-- Settles O40: by induction along the run, whose first state has only the run status set. -/
theorem runKeepsMemoryAndY : Obligations.RunKeepsMemoryAndY := by
  intro fuel s t h
  obtain ⟨-, hloop⟩ := runLoop_of_run_halted h
  have hstart : SameStorage s (s.setRunStatus .running) := ⟨rfl, rfl, fun _ _ _ => rfl⟩
  obtain ⟨hidle, hsame⟩ := runLoop_halted_induction (fun _ _ => SameStorage.trans_step) hstart hloop
  exact ⟨hidle, hsame.y, fun addr => congrArg (·.read addr) hsame.mem, hsame.bits⟩

end Sys2Proof.Machine
end

section
/-! PROOF. The encoding (spec/30_encoding.md): the decoder against the encoder and the well-formed byte sequences, the
six opcode bytes, and the abort on every other byte. -/

namespace Sys2Proof

/-! ### Operand bytes (R61, R81) -/

/-- No mode has more operand bytes than the decoder looks at. -/
theorem operandBytes_le_two (mode : Mode) : operandBytes mode ≤ 2 := by cases mode <;> decide

/-- The operand bytes of a decoded instruction are those of the two bytes after the opcode that its mode consumes. -/
theorem operandBytesOf_instrOf (k : Opcode) (b1 b2 : Byte) :
    operandBytesOf (instrOf k b1 b2) = [b1, b2].take (operandBytes (modeOf k)) := by
  cases k with
  | ldaAbs => simp [instrOf, operandBytesOf, modeOf, operandBytes]
  | brk | ldaZp | ldaImm | tax | inx => rfl

/-- The decoder's two looks ahead are the front of the bytes, as far as the bytes go. -/
theorem take_pair_getD {n : Nat} (hn : n ≤ 2) {bytes : List Byte} (h : n ≤ bytes.length) :
    [bytes.getD 0 0, bytes.getD 1 0].take n = bytes.take n :=
  match n, bytes, hn, h with
  | 0, _, _, _ => rfl
  | 1, _ :: _, _, _ => rfl
  | 2, _ :: _ :: _, _, _ => rfl

/-- An instruction is made again from its opcode and its operand bytes, whatever bytes follow them. -/
theorem instrOf_operandBytesOf (i : Instr) (rest : List Byte) :
    instrOf (opcodeOf i) ((operandBytesOf i ++ rest).getD 0 0) ((operandBytesOf i ++ rest).getD 1 0) = i := by
  cases i with
  | ldaAbs addr => exact congrArg Instr.ldaAbs (wordOf_high_low addr)
  | brk | ldaImm | ldaZp | tax | inx => rfl

/-! ### When the decoder and the well-formedness check succeed (R60, R64) -/

/-- The decoder answers an instruction exactly on a defined opcode byte with at least its operand bytes after it. -/
theorem decode_cons_eq_ok_iff {op : Byte} {bytes : List Byte} {i : Instr} {rest : List Byte} :
    decode (op :: bytes) = .ok i rest ↔
      ∃ k, decodeOpcode op = some k ∧ operandBytes (modeOf k) ≤ bytes.length ∧
        instrOf k (bytes.getD 0 0) (bytes.getD 1 0) = i ∧ bytes.drop (operandBytes (modeOf k)) = rest := by
  rcases decode_cons op bytes with ⟨hk, hd⟩ | ⟨k, hk, hshort, hd⟩ | ⟨k, hk, hlong, hd⟩
  · simp [hk, hd]
  · simp [hk, hd, hshort]
  · simp [hk, hd, hlong]

/-- The check passes exactly on a defined opcode byte with its operand bytes and no more after it. -/
theorem wellFormedBytes_cons_iff {op : Byte} {operands : List Byte} :
    wellFormedBytes (op :: operands) = true ↔
      ∃ k, decodeOpcode op = some k ∧ operands.length = operandBytes (modeOf k) := by
  cases hk : decodeOpcode op <;> simp [wellFormedBytes, hk]

/-! ### The round trip (R61, R66) -/

/-- The bytes of an instruction decode to it, and leave what follows them. -/
theorem decode_encode_append (i : Instr) (rest : List Byte) : decode (encode i ++ rest) = .ok i rest := by
  refine decode_cons_eq_ok_iff.mpr
    ⟨opcodeOf i, decodeOpcode_opcodeByte _, ?_, instrOf_operandBytesOf i rest, ?_⟩
  · simp [← operandBytesOf_length]
  · simp [← operandBytesOf_length]

/-- The bytes an instruction was decoded from are its encoding and what was left. -/
theorem encode_append_of_decode {bs : List Byte} {i : Instr} {rest : List Byte} (h : decode bs = .ok i rest) :
    bs = encode i ++ rest := by
  cases bs with
  | nil => cases h
  | cons op bytes =>
    obtain ⟨k, hk, hlen, rfl, rfl⟩ := decode_cons_eq_ok_iff.mp h
    rw [encode, opcodeOf_instrOf, operandBytesOf_instrOf, take_pair_getD (operandBytes_le_two _) hlen,
      List.cons_append, List.take_append_drop, ← opcodeByte_of_decodeOpcode hk]

/-- Settles O3: the encoder writes what the decoder reads, and the decoder loses no byte. -/
theorem decodeAgreesWithEncode : Obligations.DecodeAgreesWithEncode :=
  fun _ i rest => ⟨encode_append_of_decode, fun h => h ▸ decode_encode_append i rest⟩

/-- Settles O4: the decoder needs at least the operand bytes of the opcode, and that nothing is left says at most. -/
theorem wellFormedBytesDecode : Obligations.WellFormedBytesDecode := by
  intro bs
  cases bs with
  | nil => exact ⟨nofun, nofun⟩
  | cons op operands =>
    rw [wellFormedBytes_cons_iff]
    constructor
    · rintro ⟨k, hk, hlen⟩
      exact ⟨_, decode_cons_eq_ok_iff.mpr ⟨k, hk, hlen.ge, rfl, List.drop_eq_nil_of_le hlen.le⟩⟩
    · rintro ⟨i, h⟩
      obtain ⟨k, hk, hlen, -, hnil⟩ := decode_cons_eq_ok_iff.mp h
      exact ⟨k, hk, (List.drop_eq_nil_iff.mp hnil).antisymm hlen⟩

/-! ### The opcode bytes (R63, R64, R66) -/

/-- The six bytes of the opcode table are the encoder's opcode bytes. -/
theorem mem_definedBytes_iff {b : Byte} :
    b ∈ ([0x00, 0xA5, 0xA9, 0xAA, 0xAD, 0xE8] : List Byte) ↔ ∃ k, b = opcodeByte k := by
  constructor
  · intro h
    simp only [List.mem_cons, List.not_mem_nil, or_false] at h
    rcases h with rfl | rfl | rfl | rfl | rfl | rfl
    exacts [⟨.brk, rfl⟩, ⟨.ldaZp, rfl⟩, ⟨.ldaImm, rfl⟩, ⟨.tax, rfl⟩, ⟨.ldaAbs, rfl⟩, ⟨.inx, rfl⟩]
  · rintro ⟨k, rfl⟩
    cases k <;> decide

/-- A byte is undefined exactly when it is none of the six. -/
theorem decodeOpcode_eq_none_iff {b : Byte} :
    decodeOpcode b = none ↔ b ∉ ([0x00, 0xA5, 0xA9, 0xAA, 0xAD, 0xE8] : List Byte) := by
  rw [mem_definedBytes_iff]
  constructor
  · rintro h ⟨k, rfl⟩
    simp at h
  · intro h
    exact Option.eq_none_iff_forall_ne_some.mpr fun k hk => h ⟨k, opcodeByte_of_decodeOpcode hk⟩

/-- Settles O1: each row of the table, and the bytes off it. -/
theorem opcodeByteDecoding : Obligations.OpcodeByteDecoding :=
  ⟨by decide, by decide, by decide, by decide, by decide, by decide, fun _ => decodeOpcode_eq_none_iff⟩

/-- Settles O2: each word is the encoding of its instruction, and 0xFF is off the table. -/
theorem writtenOutWordsDecode : Obligations.WrittenOutWordsDecode :=
  ⟨decode_encode_append .brk [0x77], decode_encode_append (.ldaImm 0x05) [], decode_encode_append (.ldaZp 0x10) [],
    decode_encode_append (.ldaAbs 0x1234) [], decode_encode_append .tax [], decode_encode_append .inx [], by decide⟩

end Sys2Proof

namespace Sys2Proof.Machine

/-! ### The abort on an undefined byte (R64, R161) -/

/-- No meaning aborts: the run status after it is the one before, or Idle. -/
theorem exec_next_not_aborted {i : Instr} {s t : State} (h : exec i s = .next t) (hs : s.runStatus = .running)
    (reason : AbortReason) (op : Byte) (p : Word) : t.runStatus ≠ .aborted reason op p := by
  obtain ⟨-, -, -, -, hrun⟩ := exec_next h
  rw [hrun, hs]
  split <;> nofun

/-- A step aborts with UndefinedOpcode exactly on a byte that does not decode. -/
theorem step_aborts_iff {s : State} (hc : s.canRun) :
    (∃ t op p, step s = .next t ∧ t.runStatus = .aborted .undefinedOpcode op p) ↔
      decodeOpcode (s.mem.read s.pc) = none := by
  constructor
  · rintro ⟨t, op, p, hstep, habort⟩
    rcases step_next_cases hstep with ⟨hk, -⟩ | ⟨k, -, hexec⟩
    · exact hk
    · exact absurd habort (exec_next_not_aborted hexec rfl _ _ _)
  · intro hk
    exact ⟨_, _, _, step_undefined hc hk, rfl⟩

/-- A run loop whose first step aborts ends with that abort. -/
theorem runLoop_of_step_aborted {s t : State} {reason : AbortReason} {op : Byte} {p : Word} (hstep : step s = .next t)
    (habort : t.runStatus = .aborted reason op p) (fuel : Nat) :
    runLoop (fuel + 1) s = .aborted reason op p t := by
  simp [runLoop, hstep, habort]

/-- Settles O31: the undefined bytes are those that do not decode, and the first step of the Run is the abort. -/
theorem undefinedOpcodeAborts : Obligations.UndefinedOpcodeAborts := by
  constructor
  · intro s hc
    exact (step_aborts_iff hc).trans decodeOpcode_eq_none_iff
  · intro s fuel hidle hbyte
    have hstep := step_undefined (s := s.setRunStatus .running) trivial (decodeOpcode_eq_none_iff.mpr hbyte)
    exact ⟨_, (run_of_idle hidle _).trans (runLoop_of_step_aborted hstep rfl fuel)⟩

end Sys2Proof.Machine
end

section
/-! PROOF. The addressing resolver (spec/40_addressing.md): the address of each mode as a number, the abort of
NonAddressing, and the invariant, whose abort record is never the resolver's. -/

namespace Sys2Proof.Machine

/-! ### The invariant (R93, R161, R163) -/

/-- An engine that has not aborted has no record to fit. -/
theorem abortRecordFits_of_not_aborted {s : State}
    (h : ∀ reason op p, s.runStatus ≠ .aborted reason op p) : s.abortRecordFits := by
  unfold State.abortRecordFits
  cases hs : s.runStatus with
  | idle | running => trivial
  | aborted reason op p => exact absurd hs (h reason op p)

/-- After every step the abort record fits, whatever stood before: the fetch alone aborts, on the byte it has just
moved `pc` past, and no meaning does. -/
theorem step_next_abortRecordFits {s t : State} (h : step s = .next t) : t.abortRecordFits := by
  rcases step_next_cases h with ⟨hk, rfl⟩ | ⟨k, -, hexec⟩
  · exact ⟨hk, rfl, rfl⟩
  · exact abortRecordFits_of_not_aborted (exec_next_not_aborted hexec rfl)

/-- Settles O37: a step writes no memory, and its abort record fits. -/
theorem stepKeepsInv : Obligations.StepKeepsInv := by
  intro s t hinv h
  obtain ⟨-, hmem, -, -⟩ := stepKeepsMemoryYAndStorageBits s t h
  exact ⟨hmem ▸ hinv.memWf, step_next_abortRecordFits h⟩

/-! ### Addresses as numbers -/

/-- `read16` as a number (R44). -/
theorem read16_toNat (m : Memory) (addr : Word) :
    (m.read16 addr).toNat = (m.read (addr + 1)).toNat * 256 + (m.read addr).toNat := by
  obtain ⟨hread16, -⟩ := read16LittleEndian m
  exact hread16 addr

/-- A zero-page address plus an index wraps within the zero page (R84, R85). -/
theorem zeroPageSum_toNat (base index : Byte) :
    (zeroExtend16 (base + index)).toNat = (base.toNat + index.toNat) % 256 := by
  rw [zeroExtend16_toNat, BitVec.toNat_add]

/-- A 16-bit address plus an index wraps at the top of the space (R87, R88). -/
theorem absoluteSum_toNat (base : Word) (index : Byte) :
    (base + zeroExtend16 index).toNat = (base.toNat + index.toNat) % 65536 := by
  rw [BitVec.toNat_add, zeroExtend16_toNat]

/-- The zero-page pointer at `ptr` as a number, from the addresses of its two bytes (R89, R90). -/
theorem zeroPagePointer_toNat (m : Memory) {ptr : Byte} {lo hi : Word} (hlo : lo.toNat = ptr.toNat)
    (hhi : hi.toNat = (ptr.toNat + 1) % 256) :
    (zeroPagePointer m ptr).toNat = (m.read hi).toNat * 256 + (m.read lo).toNat := by
  have elo : zeroExtend16 ptr = lo := BitVec.eq_of_toNat_eq ((zeroExtend16_toNat ptr).trans hlo.symm)
  have ehi : zeroExtend16 (ptr + 1) = hi := BitVec.eq_of_toNat_eq ((zeroPageSum_toNat ptr 1).trans hhi.symm)
  rw [zeroPagePointer, elo, ehi, wordOf_toNat]

/-! ### The modes (R82-R91) -/

/-- Settles O13: the zero-page sums and the absolute sums, from the operand read at `pc`. -/
theorem resolveIndexedModes : Obligations.ResolveIndexedModes := by
  intro s
  have habsolute (index : Byte) := absoluteSum_toNat (s.mem.read16 s.pc) index
  simp only [read16_toNat] at habsolute
  exact ⟨⟨_, rfl, zeroPageSum_toNat _ s.x⟩, ⟨_, rfl, zeroPageSum_toNat _ s.y⟩,
    ⟨_, rfl, habsolute s.x⟩, ⟨_, rfl, habsolute s.y⟩⟩

/-- Settles O14: X moves the pointer, before the dereference; Y moves the address, after it. -/
theorem resolveIndirectModes : Obligations.ResolveIndirectModes := by
  intro s lo hi
  constructor
  · intro hlo hhi
    have hptr := BitVec.toNat_add (s.mem.read s.pc) s.x
    have hnext : hi.toNat = ((s.mem.read s.pc + s.x).toNat + 1) % 256 := by rw [hhi, hptr, Nat.mod_add_mod]
    exact ⟨_, rfl, zeroPagePointer_toNat s.mem (hlo.trans hptr.symm) hnext⟩
  · intro hlo hhi
    refine ⟨_, rfl, ?_⟩
    rw [absoluteSum_toNat, zeroPagePointer_toNat s.mem hlo hhi]

/-- Settles O12: `pc` itself, a zero-page byte, and the 16-bit value at `pc`. -/
theorem resolveUnindexedModes : Obligations.ResolveUnindexedModes :=
  fun s => ⟨rfl, ⟨_, rfl, zeroExtend16_toNat _⟩, ⟨_, rfl, read16_toNat s.mem s.pc⟩⟩

/-- Settles O15: `resolve_abort` is the one direction; the abort is taken before `pc` moves. -/
theorem resolveNonAddressingAborts : Obligations.ResolveNonAddressingAborts := by
  refine ⟨fun mode s => ⟨?_, ?_⟩, fun _ => rfl, fun _ _ _ => rfl⟩
  · rintro ⟨reason, h⟩
    obtain ⟨hmode, -⟩ := resolve_abort h
    exact hmode
  · rintro rfl
    exact ⟨.nonAddressingResolve, rfl⟩

end Sys2Proof.Machine
end

section
/-! PROOF. The execution engine (spec/41_execution_engine.md): the flag update, the single step against the run loop's
pseudocode, and how a Run under fuel ends. -/

namespace Sys2Proof.Machine

/-! ### The flag update (R109, R110) -/

/-- Settles O16: the bits are those of `updateZN`, and a zero result has no bit 7. -/
theorem flagUpdateSetsZeroAndNegative : Obligations.FlagUpdateSetsZeroAndNegative := by
  intro s r
  have hflags := updateZN_flagsFrom s.status r
  refine ⟨hflags, rfl, ?_, rfl⟩
  rintro ⟨hzero, hnegative⟩
  obtain ⟨hz, hn, -⟩ := hflags
  obtain rfl : r = 0x00 := of_decide_eq_true (hz.symm.trans hzero)
  exact absurd (hn.symm.trans hnegative) (by decide)

/-! ### Which engines make a step (R100, R164) -/

/-- An engine can run, or it has aborted. -/
theorem canRun_or_aborted (s : State) : s.canRun ∨ ∃ reason op p, s.runStatus = .aborted reason op p := by
  cases hs : s.runStatus with
  | idle | running => exact .inl (by simp [State.canRun, hs])
  | aborted reason op p => exact .inr ⟨reason, op, p, rfl⟩

/-- The host may invoke Run on an Idle engine (log entry 1). -/
theorem canRun_of_idle {s : State} (h : s.runStatus = .idle) : s.canRun := by simp [State.canRun, h]

/-- A running engine goes on. -/
theorem canRun_of_running {s : State} (h : s.runStatus = .running) : s.canRun := by simp [State.canRun, h]

/-- Every engine that can run has a next state: the abort of an undefined byte is one, and every meaning gives one. -/
theorem exists_step_next {s : State} (h : s.canRun) : ∃ t, step s = .next t := by
  rcases instructionStep_cases (s.setRunStatus .running) with ⟨-, hnext⟩ | ⟨_, _, t, -, -, -, hnext⟩
  · exact ⟨_, (step_of_canRun h).trans hnext⟩
  · exact ⟨t, (step_of_canRun h).trans hnext⟩

/-- Settles O34: a step of an engine that can run is a next state, a step of an aborted one the fault. -/
theorem stepAnswersUnlessAborted : Obligations.StepAnswersUnlessAborted := by
  intro s
  refine ⟨⟨exists_step_next, fun ⟨t, h⟩ => canRun_of_step_next h⟩, fun r hr => ?_, fun _ _ _ => step_of_aborted⟩
  rcases canRun_or_aborted s with hc | ⟨reason, op, p, hs⟩
  · obtain ⟨t, ht⟩ := exists_step_next hc
    cases ht.symm.trans hr
  · cases (step_of_aborted hs).symm.trans hr

/-! ### The single step (R101-R105) -/

/-- Settles O28: the three bytes from `pc` on hold the operands of every instruction. -/
theorem stepRunsDecodedInstruction : Obligations.StepRunsDecodedInstruction := by
  intro s i rest hc hdecode
  obtain ⟨k, hk, -, rfl, -⟩ := decode_cons_eq_ok_iff.mp hdecode
  exact step_defined hc hk

/-- Settles O30: both steps are the instruction step of the running engine. -/
theorem idleStepBeginsRun : Obligations.IdleStepBeginsRun :=
  fun s hidle => (step_of_canRun (canRun_of_idle hidle)).trans
    (step_of_canRun (s := s.setRunStatus .running) (canRun_of_running rfl)).symm

/-- Settles O32: the abort writes the run status, after `pc` has moved past the opcode byte. -/
theorem abortChangesOnlyPc : Obligations.AbortChangesOnlyPc :=
  fun _ => step_undefined

/-- A step from a defined opcode moves `pc` by the instruction's length: one byte for the opcode (R101 b), then the
operand bytes. -/
theorem step_next_pc {s t : State} {k : Opcode} (h : step s = .next t) (hk : decodeOpcode (s.mem.read s.pc) = some k) :
    t.pc = s.pc + BitVec.ofNat 16 (lengthOf k) := by
  rw [step_defined (canRun_of_step_next h) hk] at h
  obtain ⟨-, -, -, hpc, -⟩ := exec_next h
  simpa [lengthOf, BitVec.ofNat_add, BitVec.add_assoc] using hpc

/-- Settles O33: the addition that moves `pc` wraps at 16 bits. -/
theorem pcAdvancesByLength : Obligations.PcAdvancesByLength := by
  intro s t k h hk
  rw [step_next_pc h hk, BitVec.toNat_add, BitVec.toNat_ofNat, Nat.add_mod_mod]

/-! ### The pseudocode of the run loop (R101) -/

/-- Sub-step (c) on an undefined opcode. -/
theorem ruleStep_undefined {s : State} (hk : decodeOpcode (s.mem.read s.pc) = none) :
    ruleStep s = .next (takeAbort .undefinedOpcode (s.mem.read s.pc) s.pc (s.advancePc 1)) := by
  simp [ruleStep, hk]

/-- Sub-step (c) on BRK. -/
theorem ruleStep_brk {s : State} (hk : decodeOpcode (s.mem.read s.pc) = some .brk) :
    ruleStep s = .next (haltRun (s.advancePc 1)) := by
  simp [ruleStep, hk, mnemonicOf]

/-- Sub-step (d) on a mode with no operand: the resolver is not called. -/
theorem ruleStep_nonAddressing {s : State} {k : Opcode} (hk : decodeOpcode (s.mem.read s.pc) = some k)
    (hbrk : mnemonicOf k ≠ .brk) (hmode : modeOf k = .nonAddressing) :
    ruleStep s = .next (ruleFinish k 0 (s.advancePc 1)) := by
  simp [ruleStep, hk, hbrk, hmode]

/-- Sub-step (d) on a mode that the resolver gives an address. -/
theorem ruleStep_address {s : State} {k : Opcode} {ea : Word} (hk : decodeOpcode (s.mem.read s.pc) = some k)
    (hbrk : mnemonicOf k ≠ .brk) (hea : resolve (modeOf k) (s.advancePc 1) = .address ea) :
    ruleStep s = .next (ruleFinish k ea (s.advancePc 1)) := by
  have hmode : modeOf k ≠ .nonAddressing := by
    intro h
    rw [h] at hea
    cases hea
  simp [ruleStep, hk, hbrk, hmode, hea]

/-- The operand address of `LDA $hhll`, which the step reads at fetch, is the one the resolver gives (R86). -/
theorem resolve_absolute_advancePc (s : State) :
    resolve .absolute (s.advancePc 1) = .address (wordOf (s.mem.read (s.pc + 2)) (s.mem.read (s.pc + 1))) := by
  have hnext : s.pc + 1 + 1 = s.pc + 2 := by bv_omega
  rw [← hnext]
  rfl

/-- Sub-step (e) moves no `pc` where the mode has no operand byte. -/
theorem ruleFinish_nonAddressing {k : Opcode} (hmode : modeOf k = .nonAddressing) (ea : Word) (s : State) :
    ruleFinish k ea s = (ruleExecute (mnemonicOf k) ea s).1.setZN (ruleExecute (mnemonicOf k) ea s).2 := by
  have hlen : lengthOf k - 1 = 0 := by rw [lengthOf, hmode]; rfl
  have hpc : s.advancePc 0 = s := by simp [State.advancePc]
  rw [ruleFinish, hlen, hpc]

/-- The meaning of the decoded instruction is what the pseudocode does from sub-step (c) on, opcode by opcode. -/
theorem ruleStep_defined {s : State} {k : Opcode} (hk : decodeOpcode (s.mem.read s.pc) = some k) :
    exec (instrOf k (s.mem.read (s.pc + 1)) (s.mem.read (s.pc + 2))) (s.advancePc 1) = ruleStep s := by
  cases k with
  | brk => exact (ruleStep_brk hk).symm
  | tax | inx => rw [ruleStep_nonAddressing hk nofun rfl, ruleFinish_nonAddressing rfl]; rfl
  | ldaImm | ldaZp => exact (ruleStep_address hk nofun rfl).symm
  | ldaAbs => exact (ruleStep_address hk nofun (resolve_absolute_advancePc s)).symm

/-- Settles O29: by the verdict on the opcode byte. -/
theorem stepFollowsTheRunLoopRule : Obligations.StepFollowsTheRunLoopRule := by
  intro s hrunning
  rw [step_of_canRun (canRun_of_running hrunning), setRunStatus_self hrunning]
  cases hk : decodeOpcode (s.mem.read s.pc) with
  | none => rw [instructionStep_undefined hk, ruleStep_undefined hk]
  | some k => rw [instructionStep_defined hk, ruleStep_defined hk]

/-! ### The run loop by the run status of the next state (R100) -/

/-- A run loop whose first step leaves the engine Idle ends Halted. -/
theorem runLoop_of_step_idle {s u : State} (hstep : step s = .next u) (hidle : u.runStatus = .idle) (fuel : Nat) :
    runLoop (fuel + 1) s = .halted u := by
  simp [runLoop, hstep, hidle]

/-- A run loop whose first step leaves the engine running goes on from there. -/
theorem runLoop_of_step_running {s u : State} (hstep : step s = .next u) (hrunning : u.runStatus = .running)
    (fuel : Nat) : runLoop (fuel + 1) s = runLoop fuel u := by
  simp [runLoop, hstep, hrunning]

/-! ### The outcome does not depend on more fuel (R106) -/

/-- A run loop that has ended ends the same way with more fuel. -/
theorem runLoop_add_fuel {fuel : Nat} {s : State} (hc : s.canRun) (hended : ∀ t, runLoop fuel s ≠ .outOfFuel t)
    (more : Nat) : runLoop (fuel + more) s = runLoop fuel s := by
  induction fuel generalizing s with
  | zero => exact absurd rfl (hended s)
  | succ fuel ih =>
    obtain ⟨u, hu⟩ := exists_step_next hc
    rw [Nat.succ_add]
    cases hs : u.runStatus with
    | idle => simp only [runLoop_of_step_idle hu hs]
    | aborted reason op p => simp only [runLoop_of_step_aborted hu hs]
    | running =>
      simp only [runLoop_of_step_running hu hs] at hended ⊢
      exact ih (canRun_of_running hs) hended

/-- A Run that has not run out of fuel answers the same with more; where it is refused, fuel takes no part. -/
theorem run_add_fuel {fuel : Nat} {s : State} (hended : ∀ t, run fuel s ≠ .outOfFuel t) (more : Nat) :
    run (fuel + more) s = run fuel s := by
  cases hs : s.runStatus with
  | idle =>
    simp only [run_of_idle hs] at hended ⊢
    exact runLoop_add_fuel (canRun_of_running rfl) hended more
  | running | aborted => simp [run, hs]

/-- Settles O42: neither outcome is `outOfFuel`. -/
theorem runOutcomeIsStable : Obligations.RunOutcomeIsStable := by
  refine fun fuel more s => ⟨fun t h => ?_, fun reason op p t h => ?_⟩
  · exact (run_add_fuel (by simp [h]) more).trans h
  · exact (run_add_fuel (by simp [h]) more).trans h

/-! ### What holds where a run ends (R100, R107) -/

/-- The run leaves a state in which `P` holds, with the run status that belongs to its outcome; it is not refused. -/
def RunOutcome.Leaves (P : State → Prop) : RunOutcome → Prop
  | .halted t => t.runStatus = .idle ∧ P t
  | .aborted reason op p t => t.runStatus = .aborted reason op p ∧ P t
  | .outOfFuel t => t.runStatus = .running ∧ P t
  | .refused _ => False

/-- A run loop leaves, however it ends, what holds at its start and is kept by every step. -/
theorem runLoop_leaves {P : State → Prop} (hstep : ∀ u v, P u → step u = .next v → P v) (fuel : Nat) {s : State}
    (hrunning : s.runStatus = .running) (hs : P s) : (runLoop fuel s).Leaves P := by
  induction fuel generalizing s with
  | zero => exact ⟨hrunning, hs⟩
  | succ fuel ih =>
    obtain ⟨u, hu⟩ := exists_step_next (canRun_of_running hrunning)
    have hPu := hstep s u hs hu
    cases hru : u.runStatus with
    | idle => rw [runLoop_of_step_idle hu hru]; exact ⟨hru, hPu⟩
    | aborted reason op p => rw [runLoop_of_step_aborted hu hru]; exact ⟨hru, hPu⟩
    | running => rw [runLoop_of_step_running hu hru]; exact ih hru hPu

/-- Only BRK ends a step Idle: the byte before the new `pc` is 0x00 (R150). -/
theorem read_pc_sub_one_of_step_idle {s t : State} (h : step s = .next t) (hidle : t.runStatus = .idle) :
    s.mem.read (t.pc - 1) = 0x00 := by
  rcases step_next_cases h with ⟨-, rfl⟩ | ⟨k, hk, hexec⟩
  · cases hidle
  · obtain ⟨-, -, -, -, hrun⟩ := exec_next hexec
    have hbrk : instrOf k (s.mem.read (s.pc + 1)) (s.mem.read (s.pc + 2)) = .brk := by
      by_contra hne
      cases hidle.symm.trans (hrun.trans (if_neg hne))
    obtain rfl := instrOf_eq_brk_iff.mp hbrk
    have hpc : t.pc - 1 = s.pc := by rw [step_next_pc h hk]; exact BitVec.add_sub_cancel _ _
    rw [hpc]
    exact opcodeByte_of_decodeOpcode hk

/-- What a true abort record says of an aborted engine. -/
theorem aborted_of_abortRecordFits {s : State} (hfits : s.abortRecordFits) {reason : AbortReason} {op : Byte} {p : Word}
    (h : s.runStatus = .aborted reason op p) :
    reason = .undefinedOpcode ∧ decodeOpcode op = none ∧ s.mem.read p = op := by
  unfold State.abortRecordFits at hfits
  rw [h] at hfits
  cases reason with
  | undefinedOpcode =>
    obtain ⟨hop, hread, -⟩ := hfits
    exact ⟨rfl, hop, hread⟩
  | nonAddressingResolve => exact hfits.elim

/-- The memory is `m`, and where the engine has stopped, it stopped for a reason that stands in `m`: Idle just past a
BRK byte, or with a true abort record. -/
structure StoppedBy (m : Memory) (s : State) : Prop where
  mem : s.mem = m
  atBrk : s.runStatus = .idle → m.read (s.pc - 1) = 0x00
  recordFits : s.abortRecordFits

/-- Every step keeps it: a step writes no memory, and stops the engine at BRK or on an undefined byte only. -/
theorem StoppedBy.of_step {m : Memory} {u v : State} (h : StoppedBy m u) (hstep : step u = .next v) : StoppedBy m v := by
  obtain ⟨-, hmem, -, -⟩ := stepKeepsMemoryYAndStorageBits u v hstep
  exact ⟨hmem.trans h.mem, fun hidle => h.mem ▸ read_pc_sub_one_of_step_idle hstep hidle,
    step_next_abortRecordFits hstep⟩

/-- A Run on an Idle engine ends stopped by its own memory. -/
theorem run_leaves_stoppedBy {s : State} (hidle : s.runStatus = .idle) (fuel : Nat) :
    (run fuel s).Leaves (StoppedBy s.mem) := by
  rw [run_of_idle hidle]
  exact runLoop_leaves (fun _ _ => StoppedBy.of_step) fuel rfl ⟨rfl, nofun, trivial⟩

/-- Settles O41: a Run that is not refused ends stopped by its memory, a BRK byte if Idle, the recorded byte if
aborted. -/
theorem runEndsAtBrkOrUndefinedByte : Obligations.RunEndsAtBrkOrUndefinedByte := by
  intro fuel s
  cases hs : s.runStatus with
  | running | aborted => simp [run, hs]
  | idle =>
    have hleaves := run_leaves_stoppedBy hs fuel
    constructor
    · intro t h
      rw [h] at hleaves
      obtain ⟨hidle, hstopped⟩ := hleaves
      exact hstopped.atBrk hidle
    · intro reason op p t h
      rw [h] at hleaves
      obtain ⟨habort, hstopped⟩ := hleaves
      exact hstopped.mem ▸ aborted_of_abortRecordFits hstopped.recordFits habort

/-- Settles O43: neither end of a Run has its byte in such a memory. -/
theorem runWithoutBrkNeverEnds : Obligations.RunWithoutBrkNeverEnds := by
  intro s fuel hidle hbytes
  obtain ⟨hhalted, haborted⟩ := runEndsAtBrkOrUndefinedByte fuel s
  cases h : run fuel s with
  | outOfFuel t => exact ⟨t, rfl⟩
  | halted t =>
    obtain ⟨hbrk, -⟩ := hbytes (t.pc - 1)
    exact absurd (hhalted t h) hbrk
  | aborted reason op p t =>
    obtain ⟨-, hundefined, hread⟩ := haborted reason op p t h
    obtain ⟨-, hdefined⟩ := hbytes p
    exact absurd (hread ▸ hundefined) hdefined
  | refused r =>
    have hleaves := run_leaves_stoppedBy hidle fuel
    rw [h] at hleaves
    exact hleaves.elim

/-! ### Run is iterated step (R100, R105) -/

/-- The machine's run by its first step. -/
theorem core_run_succ {s u : State} (h : step s = .next u) (n : Nat) :
    Sys2Proof.core.run (n + 1) s = Sys2Proof.core.run n u := by
  have hcore : Sys2Proof.core.step s = .next u := h
  simp [Host.Core.run, hcore]

/-- A run loop that halts is a number of steps, at least one and at most the fuel. -/
theorem runLoop_halted_iterates {fuel : Nat} {s t : State} (h : runLoop fuel s = .halted t) :
    ∃ n < fuel, Sys2Proof.core.run (n + 1) s = .next t := by
  induction fuel generalizing s with
  | zero => cases h
  | succ fuel ih =>
    obtain ⟨u, hu, ⟨-, rfl⟩ | ⟨-, hloop⟩⟩ := runLoop_halted_cases h
    · exact ⟨0, Nat.succ_pos fuel, core_run_succ hu 0⟩
    · obtain ⟨n, hn, hrun⟩ := ih hloop
      exact ⟨n + 1, Nat.succ_lt_succ hn, (core_run_succ hu (n + 1)).trans hrun⟩

/-- Settles O44: the first step of the Idle engine is that of the run loop's first state, which only has the run status
set. -/
theorem runIsIteratedStep : Obligations.RunIsIteratedStep := by
  intro fuel s t h
  obtain ⟨hidle, hloop⟩ := runLoop_of_run_halted h
  obtain ⟨n, hn, hrun⟩ := runLoop_halted_iterates hloop
  obtain ⟨u, hu⟩ := exists_step_next (canRun_of_idle hidle)
  have hu' : step (s.setRunStatus .running) = .next u := (idleStepBeginsRun s hidle).symm.trans hu
  refine ⟨n + 1, Nat.succ_pos n, hn, ?_⟩
  rw [core_run_succ hu, ← core_run_succ hu', hrun]

end Sys2Proof.Machine
end

section
/-! PROOF. The load family (spec/42_load.md): what an LDA leaves, as a meaning and as a step from its opcode byte. -/

namespace Sys2Proof.Machine

/-! ### What a load leaves (R123) -/

/-- Loading a byte into A past `n` bytes: A and the flags come from the byte, and nothing else but `pc` is written. -/
theorem loadA_advancePc_effect (v : Byte) (s : State) (n : Nat) :
    let t := loadA v (s.advancePc n)
    t.a = v ∧ FlagsFrom s.status t.a t.status ∧ t.pc = s.pc + BitVec.ofNat 16 n ∧ t.x = s.x ∧ t.y = s.y ∧
      t.mem = s.mem ∧ t.runStatus = s.runStatus :=
  ⟨rfl, updateZN_flagsFrom s.status v, rfl, rfl, rfl, rfl, rfl⟩

/-- Two moves of `pc` are one. -/
theorem advancePc_advancePc (s : State) (m n : Nat) : (s.advancePc m).advancePc n = s.advancePc (m + n) := by
  simp [State.advancePc, BitVec.ofNat_add, BitVec.add_assoc]

/-- The resolver gives an address for the mode of every LDA form (R93). -/
theorem exists_resolve_of_lda {k : Opcode} (hlda : mnemonicOf k = .lda) (s : State) :
    ∃ ea, resolve (modeOf k) s = .address ea := by
  cases h : resolve (modeOf k) s with
  | address ea => exact ⟨ea, rfl⟩
  | abort reason =>
    obtain ⟨hmode, -⟩ := resolve_abort h
    cases k with
    | ldaImm | ldaZp | ldaAbs => cases hmode
    | brk | tax | inx => cases hlda

/-- A running engine at an LDA opcode loads the byte at the resolved address, past the whole instruction: the run
loop's pseudocode (R101) for the mnemonic LDA. -/
theorem step_lda {s : State} {k : Opcode} {ea : Word} (hrunning : s.runStatus = .running)
    (hop : s.mem.read s.pc = opcodeByte k) (hlda : mnemonicOf k = .lda)
    (hea : resolve (modeOf k) (s.advancePc 1) = .address ea) :
    step s = .next (loadA (s.mem.read ea) (s.advancePc (lengthOf k))) := by
  have hk : decodeOpcode (s.mem.read s.pc) = some k := hop ▸ decodeOpcode_opcodeByte k
  have hbrk : mnemonicOf k ≠ .brk := by simp [hlda]
  have hlen : 1 + (lengthOf k - 1) = lengthOf k := Nat.add_sub_cancel' (Nat.le_add_right 1 _)
  rw [stepFollowsTheRunLoopRule s hrunning, ruleStep_address hk hbrk hea, ruleFinish, advancePc_advancePc, hlen, hlda]
  rfl

/-! ### The three forms (R120-R122) -/

/-- Settles O17: the byte at the immediate mode's address is the operand (R82). -/
theorem ldaImmediateLoadsOperand : Obligations.LdaImmediateLoadsOperand := by
  refine ⟨fun v s => ⟨_, exec_ldaImm_eq v s, loadA_advancePc_effect v s 1⟩, fun s hrunning hop => ?_⟩
  have hstep := step_lda (k := .ldaImm) hrunning hop rfl rfl
  exact ⟨_, hstep, hrunning ▸ loadA_advancePc_effect _ s 2⟩

/-- Settles O18: the address is the zero-extended operand (R83). -/
theorem ldaZeroPageLoadsByte : Obligations.LdaZeroPageLoadsByte := by
  refine ⟨fun z s => ⟨_, exec_ldaZp_eq z s, loadA_advancePc_effect _ s 1⟩, fun s hrunning hop => ?_⟩
  have hstep := step_lda (k := .ldaZp) hrunning hop rfl rfl
  exact ⟨_, hstep, hrunning ▸ loadA_advancePc_effect _ s 2⟩

/-- Settles O19: the number that fixes `ea` is that of `hh : ll`, the address of the absolute mode (R86). -/
theorem ldaAbsoluteLoadsByte : Obligations.LdaAbsoluteLoadsByte := by
  refine ⟨fun addr s => ⟨_, exec_ldaAbs_eq addr s, loadA_advancePc_effect _ s 2⟩, fun s ea hrunning hop hea => ?_⟩
  obtain rfl : ea = wordOf (s.mem.read (s.pc + 2)) (s.mem.read (s.pc + 1)) :=
    BitVec.eq_of_toNat_eq (hea.trans (wordOf_toNat _ _).symm)
  have hstep := step_lda (k := .ldaAbs) hrunning hop rfl (resolve_absolute_advancePc s)
  exact ⟨_, hstep, hrunning ▸ loadA_advancePc_effect _ s 3⟩

/-! ### Every form by its mode (R123) -/

/-- What the flags say of the result as a number: Zero iff it is 0, Negative iff it is at least 0x80 (R109). -/
theorem FlagsFrom.iff_of_result {before r after : Byte} (h : FlagsFrom before r after) :
    (after.getLsbD 1 = true ↔ r = 0) ∧ (after.getLsbD 7 = true ↔ r.toNat ≥ 0x80) := by
  obtain ⟨hzero, hnegative, -⟩ := h
  have hbit7 : r.getLsbD 7 = decide (0x80 ≤ r.toNat) := BitVec.getLsbD_last r
  rw [hzero, hnegative, hbit7]
  exact ⟨decide_eq_true_iff, decide_eq_true_iff⟩

/-- Settles O20: the step of an LDA opcode is a load from the address the resolver gives. -/
theorem ldaReadsAtResolvedAddress : Obligations.LdaReadsAtResolvedAddress := by
  intro s k hrunning hk hlda
  obtain ⟨ea, hea⟩ := exists_resolve_of_lda hlda (s.advancePc 1)
  have hstep := step_lda hrunning (opcodeByte_of_decodeOpcode hk) hlda hea
  obtain ⟨ha, hflags, -, hx, hy, hmem, -⟩ := loadA_advancePc_effect (s.mem.read ea) s (lengthOf k)
  obtain ⟨hzero, hnegative⟩ := hflags.iff_of_result
  obtain ⟨-, -, hstorage⟩ := hflags
  exact ⟨ea, _, hea, hstep, ha, hzero, hnegative, hstorage, hx, hy, hmem⟩

end Sys2Proof.Machine
end

section
/-! PROOF. The transfer family (spec/43_transfer.md): what TAX leaves, as a meaning and as a step from its byte. -/

namespace Sys2Proof.Machine

/-- Loading a byte into X: X and the flags come from the byte, and nothing else is written. -/
theorem loadX_effect (v : Byte) (s : State) :
    let t := loadX v s
    t.x = v ∧ FlagsFrom s.status t.x t.status ∧ t.a = s.a ∧ t.pc = s.pc ∧ t.y = s.y ∧ t.mem = s.mem ∧
      t.runStatus = s.runStatus :=
  ⟨rfl, updateZN_flagsFrom s.status v, rfl, rfl, rfl, rfl, rfl⟩

/-- A running engine at an instruction's opcode byte takes that instruction's meaning past the byte (R101). -/
theorem step_opcodeByte {s : State} {k : Opcode} (hrunning : s.runStatus = .running)
    (hop : s.mem.read s.pc = opcodeByte k) :
    step s = exec (instrOf k (s.mem.read (s.pc + 1)) (s.mem.read (s.pc + 2))) (s.advancePc 1) := by
  have hk : decodeOpcode (s.mem.read s.pc) = some k := hop ▸ decodeOpcode_opcodeByte k
  rw [step_defined (canRun_of_running hrunning) hk, setRunStatus_self hrunning]

/-- Settles O21: TAX loads the byte in A into X (R130); a step does so past the opcode byte. -/
theorem taxCopiesAccumulator : Obligations.TaxCopiesAccumulator := by
  refine ⟨fun s => ⟨_, exec_tax_eq s, loadX_effect s.a s⟩, fun s hrunning hop => ?_⟩
  have hstep : step s = .next (loadX s.a (s.advancePc 1)) := step_opcodeByte (k := .tax) hrunning hop
  exact ⟨_, hstep, hrunning ▸ loadX_effect s.a (s.advancePc 1)⟩

end Sys2Proof.Machine
end

section
/-! PROOF. The increment family (spec/44_increment.md): what INX leaves, as a meaning and as a step from its byte. -/

namespace Sys2Proof.Machine

/-- Incrementing X: X wraps at 8 bits, the flags come from the new X, and nothing else is written. -/
theorem loadX_add_one_effect (s : State) :
    let t := loadX (s.x + 1) s
    t.x.toNat = (s.x.toNat + 1) % 256 ∧ FlagsFrom s.status t.x t.status ∧ t.a = s.a ∧ t.pc = s.pc ∧ t.y = s.y ∧
      t.mem = s.mem ∧ t.runStatus = s.runStatus := by
  obtain ⟨-, hrest⟩ := loadX_effect (s.x + 1) s
  exact ⟨BitVec.toNat_add s.x 1, hrest⟩

/-- Settles O22: INX loads X + 1, an 8-bit sum, into X (R140); a step does so past the opcode byte. -/
theorem inxIncrementsWithWrap : Obligations.InxIncrementsWithWrap := by
  refine ⟨fun s => ⟨_, exec_inx_eq s, loadX_add_one_effect s⟩, fun s hrunning hop => ?_⟩
  have hstep : step s = .next (loadX (s.x + 1) (s.advancePc 1)) := step_opcodeByte (k := .inx) hrunning hop
  exact ⟨_, hstep, hrunning ▸ loadX_add_one_effect (s.advancePc 1)⟩

end Sys2Proof.Machine
end

section
/-! PROOF. The halt family (spec/45_halt.md): what BRK leaves, as a meaning, as a step from its byte and as a Run. -/

namespace Sys2Proof.Machine

/-- An engine that can run, Idle (log entry 1) or running, halts past the byte 0x00. -/
theorem step_brk {s : State} (hc : s.canRun) (hop : s.mem.read s.pc = 0x00) :
    step s = .next (haltRun (s.advancePc 1)) := by
  have hk : decodeOpcode (s.mem.read s.pc) = some .brk := hop ▸ decodeOpcode_opcodeByte .brk
  exact step_defined hc hk

/-- A Run that begins at the byte 0x00 halts after this one step, with `pc` past the byte and nothing else written. -/
theorem run_brk {s : State} (hidle : s.runStatus = .idle) (hop : s.mem.read s.pc = 0x00) (fuel : Nat) :
    run (fuel + 1) s = .halted (s.advancePc 1) := by
  have hstep : step (s.setRunStatus .running) = .next (haltRun (s.advancePc 1)) :=
    step_brk (canRun_of_running rfl) hop
  have hhalt : haltRun (s.advancePc 1) = s.advancePc 1 := setRunStatus_self hidle
  rw [run_of_idle hidle, runLoop_of_step_idle hstep rfl, hhalt]

/-- Settles O23: the meaning is `halt` (R150), a step halts past the byte 0x00, and a Run ends with that step. -/
theorem brkHalts : Obligations.BrkHalts :=
  ⟨exec_brk_eq, fun _ hrunning hop => step_brk (canRun_of_running hrunning) hop,
    fun _ fuel hidle hop => run_brk hidle hop fuel⟩

/-- Settles O27: `halt` writes the run status alone. -/
theorem haltFrame : Obligations.HaltFrame := by
  intro s t h
  obtain rfl : haltRun s = t := Host.Outcome.next.inj ((exec_brk_eq s).symm.trans h)
  exact ⟨haltRun_a s, haltRun_x s, haltRun_y s, haltRun_status s, haltRun_pc s,
    fun addr => congrArg (·.read addr) (haltRun_mem s)⟩

/-- Settles O45: a constructed engine is Idle, and the byte at 0x0000 is the 0x00 of an empty memory (R37). -/
theorem constructThenRunHalts : Obligations.ConstructThenRunHalts :=
  run_brk rfl (read_nil _)

end Sys2Proof.Machine
end

section
/-! PROOF. The exceptions (spec/60_exceptions.md): what the host may still do on an aborted engine and on a running one. -/

namespace Sys2Proof.Machine

/-! ### An aborted engine (R164) -/

/-- On an aborted engine every host operation is refused with the abort's record. -/
theorem hostOp_of_aborted {s : State} {r : AbortReason} {o : Byte} {p : Word} (h : s.runStatus = .aborted r o p)
    (op : HostOp) : hostOp op s = .refused (.engineAborted r o p) := by
  simp [hostOp, h]

/-- On an aborted engine Run is refused with the abort's record. -/
theorem run_of_aborted {s : State} {r : AbortReason} {o : Byte} {p : Word} (h : s.runStatus = .aborted r o p)
    (fuel : Nat) : run fuel s = .refused (.engineAborted r o p) := by
  simp [run, h]

/-- On an aborted engine the read-out stays possible. -/
theorem readOut_of_aborted {s : State} {r : AbortReason} {o : Byte} {p : Word} (h : s.runStatus = .aborted r o p) :
    readOut s = .ok ⟨s.a, s.x, s.y, s.status, s.pc, s.mem⟩ := by
  simp [readOut, h]

/-! ### A running engine (R191) -/

/-- On a running engine every host operation is refused. -/
theorem hostOp_of_running {s : State} (h : s.runStatus = .running) (op : HostOp) :
    hostOp op s = .refused .engineRunning := by
  simp [hostOp, h]

/-- On a running engine Run is refused. -/
theorem run_of_running {s : State} (h : s.runStatus = .running) (fuel : Nat) :
    run fuel s = .refused .engineRunning := by
  simp [run, h]

/-- On a running engine the read-out is refused (log entry 7). -/
theorem readOut_of_running {s : State} (h : s.runStatus = .running) : readOut s = .error .engineRunning := by
  simp [readOut, h]

/-! ### Both -/

/-- A refused host operation leaves the engine as it was. -/
theorem stateAfter_hostOp_of_refused {op : HostOp} {s : State} {r : Refusal} (h : hostOp op s = .refused r) :
    stateAfter s (hostOp op s) = s :=
  congrArg (stateAfter s) h

/-- Settles O52: each operation is refused by its run status, and a refused host operation has no effect. -/
theorem hostRefusedUnlessIdle : Obligations.HostRefusedUnlessIdle := by
  refine fun s op fuel => ⟨fun r o p haborted => ?_, fun hrunning => ?_⟩
  · have hop := hostOp_of_aborted haborted op
    exact ⟨hop, stateAfter_hostOp_of_refused hop, run_of_aborted haborted fuel, readOut_of_aborted haborted⟩
  · have hop := hostOp_of_running hrunning op
    exact ⟨hop, stateAfter_hostOp_of_refused hop, run_of_running hrunning fuel, readOut_of_running hrunning⟩

end Sys2Proof.Machine
end

section
/-! PROOF. Reset, boot and the host interface (spec/70_reset_and_hazards.md): what Construct, Reset, Load and the
snapshot leave, the host's writes to memory, the read-out, and the invariant under every host operation. -/

namespace Sys2Proof.Machine

/-! ### Construct and Reset (R180, R181) -/

/-- Settles O46: the values of Construct, and the list of an empty memory. -/
theorem constructZeroesEverything : Obligations.ConstructZeroesEverything :=
  ⟨rfl, rfl, rfl, rfl, rfl, rfl, read_nil⟩

/-- On an Idle engine Reset is done. -/
theorem hostOp_reset {s : State} (hidle : s.runStatus = .idle) : hostOp .reset s = .ok (resetOp s) :=
  hostOp_of_idle hidle .reset

/-- Settles O47: on an Idle engine the vector is read little-endian, and an aborted one refuses every operation. -/
theorem resetKeepsYAndMemory : Obligations.ResetKeepsYAndMemory := by
  refine ⟨fun s hidle => ?_, fun s _ _ _ haborted => hostOp_of_aborted haborted .reset⟩
  exact ⟨resetOp s, hostOp_reset hidle, rfl, rfl, rfl, read16_toNat s.mem Config.resetVector, rfl, rfl, hidle⟩

/-- Settles O48: the vector of a constructed engine reads 0x0000. -/
theorem resetStateIsResetOfConstruct : Obligations.ResetStateIsResetOfConstruct :=
  hostOp_reset rfl

/-! ### Load and boot (R182-R184) -/

/-- On an Idle engine Load of a program that is copied sets the reset vector after the copy (D10). -/
theorem hostOp_load {s : State} (hidle : s.runStatus = .idle) {program : List Byte} {m : Memory}
    (hcopy : s.mem.loadProgram program Config.loadBase = some m) :
    hostOp (.load program) s = .ok (s.setMem (m.setResetVector Config.loadBase)) := by
  rw [hostOp_of_idle hidle, hostOpIdle, loadOp, hcopy]

/-- `set_reset_vector` leaves every byte but the vector's. -/
theorem read_setResetVector_other {m : Memory} (hm : m.wf = true) {b : Word} (hlow : b ≠ 0xFFFC) (hhigh : b ≠ 0xFFFD)
    (addr : Word) : (m.setResetVector addr).read b = m.read b :=
  read_write16_other hm hlow hhigh addr

/-- A byte of a program at the load base stands at the address `a` only as the byte number `a - 0x8000`. -/
theorem programAddress_ne {n i : Nat} (hn : n ≤ 0x8000) (hi : i < n) {a : Word} (ha : i ≠ a.toNat - 0x8000) :
    0x8000 + BitVec.ofNat 16 i ≠ a := by
  rintro rfl
  have haddr : (0x8000 + BitVec.ofNat 16 i : Word).toNat = 0x8000 + i :=
    programAddress_toNat (base := 0x8000) (Nat.add_le_add_left hn 0x8000) hi
  omega

/-- Settles O49: the copy of `load_program`, and after it the vector's two bytes, which no other address reads. -/
theorem loadPlacesProgramAndVector : Obligations.LoadPlacesProgramAndVector := by
  intro s program hm hidle hlen
  obtain ⟨m, hcopy, hm', hin, hout⟩ :=
    loadProgramCopies s.mem program Config.loadBase hm (Nat.add_le_add_left hlen 0x8000)
  refine ⟨_, hostOp_load hidle hcopy, rfl, rfl, rfl, rfl, rfl, hidle, ?_, ?_, ?_, ?_⟩
  · exact read_write16_low hm' Config.resetVector Config.loadBase
  · exact read_write16_high hm' Config.resetVector Config.loadBase
  · intro i hi hlow hhigh
    exact (read_setResetVector_other hm' (programAddress_ne hlen hi hlow) (programAddress_ne hlen hi hhigh) _).trans
      (hin i hi)
  · intro b hlow hhigh hb
    exact (read_setResetVector_other hm' hlow hhigh _).trans (hout b hb)

/-- Boot is Reset of the engine that Load leaves. -/
theorem boot_of_load {program : List Byte} {t : State} (hload : hostOp (.load program) State.construct = .ok t)
    (hidle : t.runStatus = .idle) : boot program = .ok (resetOp t) := by
  rw [boot, hload]
  exact hostOp_reset hidle

/-- Settles O50: Load on a constructed engine, whose memory is empty, and then Reset, which keeps Y and memory and reads
0x8000 from the vector. -/
theorem bootState : Obligations.BootState := by
  intro program hlen
  obtain ⟨t, hload, -, -, hy, -, -, hidle, hlow, hhigh, hin, hout⟩ :=
    loadPlacesProgramAndVector State.construct program rfl rfl hlen
  have hpc : t.mem.read16 Config.resetVector = 0x8000 := congrArg₂ wordOf hhigh hlow
  exact ⟨resetOp t, boot_of_load hload hidle, rfl, rfl, hy, rfl, hpc, hidle, hlow, hhigh, hin, hout⟩

/-! ### The host's writes to memory (R190) -/

/-- Replacing the memory of an Idle engine leaves the registers and the run status. -/
theorem setMem_keeps {s : State} (hidle : s.runStatus = .idle) (m : Memory) :
    (s.setMem m).a = s.a ∧ (s.setMem m).x = s.x ∧ (s.setMem m).y = s.y ∧ (s.setMem m).status = s.status ∧
      (s.setMem m).pc = s.pc ∧ (s.setMem m).runStatus = .idle :=
  ⟨rfl, rfl, rfl, rfl, rfl, hidle⟩

/-- Settles O55: each of the three replaces the memory only; a `load_program` that fits is not out of bounds. -/
theorem hostMemoryOpsWriteOnlyMemory : Obligations.HostMemoryOpsWriteOnlyMemory := by
  refine fun s hidle => ⟨fun addr v => ?_, fun addr v => ?_, fun bytes base hfit => ?_⟩
  · exact ⟨_, hostOp_of_idle hidle (.write addr v), rfl, setMem_keeps hidle _⟩
  · exact ⟨_, hostOp_of_idle hidle (.write16 addr v), rfl, setMem_keeps hidle _⟩
  · have hcopy := loadProgram_of_fits s.mem hfit
    rcases hostOp_loadProgram hidle bytes base with ⟨hnone, -⟩ | ⟨m, hm, hop⟩
    · cases hcopy.symm.trans hnone
    · exact ⟨_, hop, hm, setMem_keeps hidle m⟩

/-! ### The snapshot (R192) -/

/-- The writes of a snapshot at distinct addresses are all read back: no later one is to the same address. -/
theorem read_writePairs_of_mem {ps : List (Word × Byte)} {m : Memory} (hm : m.wf = true)
    (hdistinct : (ps.map Prod.fst).Nodup) {a : Word} {v : Byte} (h : (a, v) ∈ ps) : (writePairs m ps).read a = v := by
  induction ps generalizing m with
  | nil => cases h
  | cons p ps ih =>
    obtain ⟨hfirst, hrest⟩ := List.nodup_cons.mp hdistinct
    rcases List.mem_cons.mp h with rfl | hlater
    · exact (read_writePairs_other (write_wf hm a v) hfirst).trans (read_write_same hm a v)
    · exact ih (write_wf hm p.1 p.2) hrest hlater

/-- A register of a snapshot holds the chosen value, or what it held. -/
theorem chosen_getD {α : Type} (chosen : Option α) (old : α) :
    (∀ v, chosen = some v → chosen.getD old = v) ∧ (chosen = none → chosen.getD old = old) :=
  ⟨fun _ h => congrArg (·.getD old) h, fun h => congrArg (·.getD old) h⟩

/-- Settles O51: each register by the snapshot's choice, each byte by its one write or by none. -/
theorem snapshotSetsExactly : Obligations.SnapshotSetsExactly := by
  intro s snap hm hidle hdistinct
  obtain ⟨ha, ha'⟩ := chosen_getD snap.a s.a
  obtain ⟨hx, hx'⟩ := chosen_getD snap.x s.x
  obtain ⟨hy, hy'⟩ := chosen_getD snap.y s.y
  obtain ⟨hstatus, hstatus'⟩ := chosen_getD snap.status s.status
  obtain ⟨hpc, hpc'⟩ := chosen_getD snap.pc s.pc
  exact ⟨applySnapshot snap s, hostOp_of_idle hidle (.snapshot snap), hidle,
    ha, ha', hx, hx', hy, hy', hstatus, hstatus', hpc, hpc',
    fun _ _ h => read_writePairs_of_mem hm hdistinct h, fun _ h => read_writePairs_other hm h⟩

/-! ### The read-out (R193) -/

/-- On an Idle engine the read-out gives the registers and the memory. -/
theorem readOut_of_idle {s : State} (h : s.runStatus = .idle) :
    readOut s = .ok ⟨s.a, s.x, s.y, s.status, s.pc, s.mem⟩ := by
  simp [readOut, h]

/-- Settles O53: a run that halts ends Idle. -/
theorem readOutAfterHalt : Obligations.ReadOutAfterHalt := by
  intro fuel s t h
  obtain ⟨hidle, -⟩ := runKeepsMemoryAndY fuel s t h
  exact ⟨_, readOut_of_idle hidle, rfl, rfl, rfl, rfl, rfl, fun _ => rfl⟩

/-! ### The invariant under the host operations (R190, R164) -/

/-- A Load that is done leaves the engine with the copied program and the reset vector set. -/
theorem loadOp_ok {program : List Byte} {s t : State} (h : loadOp program s = .ok t) :
    ∃ m, s.mem.loadProgram program Config.loadBase = some m ∧ t = s.setMem (m.setResetVector Config.loadBase) := by
  rw [loadOp] at h
  split at h
  next => cases h
  next m hcopy => exact ⟨m, hcopy, (HostResult.ok.inj h).symm⟩

/-- A `load_program` that is done leaves the engine with the copied bytes. -/
theorem loadProgramOp_ok {bytes : List Byte} {base : Word} {s t : State} (h : loadProgramOp bytes base s = .ok t) :
    ∃ m, s.mem.loadProgram bytes base = some m ∧ t = s.setMem m := by
  rw [loadProgramOp] at h
  split at h
  next => cases h
  next m hcopy => exact ⟨m, hcopy, (HostResult.ok.inj h).symm⟩

/-- A host operation that is done leaves the run status and the canonical form of the memory. -/
theorem hostOpIdle_ok_keeps {op : HostOp} {s t : State} (hm : s.mem.wf = true) (h : hostOpIdle op s = .ok t) :
    t.runStatus = s.runStatus ∧ t.mem.wf = true := by
  cases op with
  | load program =>
    obtain ⟨m, hcopy, rfl⟩ := loadOp_ok h
    exact ⟨rfl, setResetVector_wf (loadProgram_wf hm hcopy) _⟩
  | loadProgram bytes base =>
    obtain ⟨m, hcopy, rfl⟩ := loadProgramOp_ok h
    exact ⟨rfl, loadProgram_wf hm hcopy⟩
  | setResetVector addr => cases h; exact ⟨rfl, setResetVector_wf hm addr⟩
  | write addr v => cases h; exact ⟨rfl, write_wf hm addr v⟩
  | write16 addr v => cases h; exact ⟨rfl, write16_wf hm addr v⟩
  | reset => cases h; exact ⟨rfl, hm⟩
  | snapshot snap => cases h; exact ⟨rfl, writePairs_wf hm snap.bytes⟩

/-- Settles O39: what is done is done on an Idle engine, stays Idle and so has no abort record to fit; anything else
leaves the state as it was. -/
theorem hostOpsKeepInv : Obligations.HostOpsKeepInv := by
  intro op s hinv
  cases hop : hostOp op s with
  | ok t =>
    have hidle := idle_of_hostOp_ok hop
    obtain ⟨hstatus, hwf⟩ := hostOpIdle_ok_keeps hinv.memWf ((hostOp_of_idle hidle op).symm.trans hop)
    have hfits : t.abortRecordFits := abortRecordFits_of_not_aborted fun _ _ _ h => by simp [hstatus, hidle] at h
    exact ⟨hwf, hfits⟩
  | outOfBounds base n => exact hinv
  | refused r => exact hinv

end Sys2Proof.Machine
end
